-- ==== Sys2Proof/Word.lean ====
section
/-! DEFINITION. The word types of keccak_permutation_engine (spec/00_scope.md R9, R11, R12). Bit 0 is the least significant
bit of each of them. What is computed on them stands in Machine/. -/

namespace Sys2Proof

/-- A byte of the state, of a command's operand or of a response (R12, R14). -/
abbrev Byte := BitVec 8

/-- A lane, one of the 25 words of 64 bits of the state (R9, R20). -/
abbrev Lane := BitVec 64

/-- A command word, `CMD_W` = 32 bits (R11, R70). -/
abbrev CommandWord := BitVec 32

/-- A response word, `RSP_W` = 16 bits (R11, R71). -/
abbrev ResponseWord := BitVec 16

/-- Five lanes by column: the theta temporaries `C[0..4]` and `D[0..4]` (R102). -/
abbrev Columns := Vector Lane 5

/-- Twenty-five lanes, lane `i` at column `i mod 5` and row `i div 5` (R20, R22). -/
abbrev Lanes := Vector Lane 25

end Sys2Proof
end

