-- ==== Sys2Proof/Syntax.lean ====
section
/-! DEFINITION. The six commands of `KPE-CMD1`, one constructor per row of spec/opcode_table.json (spec/30_encoding.md R73).
An operand is the byte `imm8`, unsigned, neither scaled nor extended (R74). -/

namespace Sys2Proof

/-- A command of the block (R73). -/
inductive Instr where
  /-- `INIT L`: create a context with output length `L` (R141). -/
  | init (outLen : Byte)
  /-- `ABSORB d`: absorb the input byte `d` (R142). -/
  | absorb (data : Byte)
  /-- `FINAL_SHA3`: the fixed-digest finalize (R143). -/
  | finalSha3
  /-- `FINAL_SHAKE`: the XOF finalize (R144). -/
  | finalShake
  /-- `SQUEEZE`: read one XOF output byte (R145). -/
  | squeeze
  /-- `DIGEST_READ k`: read digest byte `k` (R146). -/
  | digestRead (index : Byte)
deriving DecidableEq, Repr

end Sys2Proof
end

