-- ==== Sys2Proof/WellFormed.lean ====
section
/-! DEFINITION. Well-formedness. An `Instr` is well-formed by its type: its operand is a byte, and an operand outside a
command's legal range still decodes and is refused by value when the command runs (spec/30_encoding.md R74). What can be
ill-formed is a command WORD: R76 names three ways, and each is a check of its own here. The assembler's checks on source
lines (R80, R81) stand beside its lines in Machine/Assembler.lean. -/

namespace Sys2Proof

/-- `op`, bits 31:24 of a command word (R70). -/
def CommandWord.op (w : CommandWord) : BitVec 8 := w.extractLsb' 24 8

/-- `res`, bits 23:8 of a command word (R70). -/
def CommandWord.res (w : CommandWord) : BitVec 16 := w.extractLsb' 8 16

/-- `imm8`, bits 7:0 of a command word (R70). -/
def CommandWord.imm8 (w : CommandWord) : Byte := w.extractLsb' 0 8

/-- R76 (a) fails: the opcode is one of the six of R73. -/
def CommandWord.opcodeDefined (w : CommandWord) : Bool := 0x01 ≤ w.op && w.op ≤ 0x06

/-- R76 (b) fails: the reserved field is zero (R75). -/
def CommandWord.reservedZero (w : CommandWord) : Bool := w.res == 0

/-- R76 (c) fails: a command without an operand has `imm8 = 0`. -/
def CommandWord.operandAllowed (w : CommandWord) : Bool :=
  !((w.op == 0x03 || w.op == 0x04 || w.op == 0x05) && w.imm8 != 0)

/-- A command word is legal when none of R76 (a), (b) and (c) holds. -/
def CommandWord.wellFormed (w : CommandWord) : Bool :=
  w.opcodeDefined && w.reservedZero && w.operandAllowed

end Sys2Proof
end

