-- ==== Sys2Proof/Decode.lean ====
section
/-! DEFINITION. The decoder of spec/30_encoding.md R78, total on every 32-bit word and rejecting by name, and the encoder
written from the opcode map R73. Neither looks at the block's state. Command words cross the port whole, so there is no byte
order and no length to decode (R54, R79). -/

namespace Sys2Proof

/-- Why a word is illegal (R76). -/
inductive Illegal where
  /-- R76 (a): `op` is 0x00 or in 0x07..0xFF. -/
  | undefinedOpcode
  /-- R76 (b): `res` is not zero. -/
  | reservedBits
  /-- R76 (c): `op` is 0x03, 0x04 or 0x05 and `imm8` is not zero. -/
  | operandNotZero
deriving DecidableEq, Repr

/-- A command without an operand is `i` when `imm8 = 0` and illegal otherwise (R76 (c), R78). -/
def decodeBare (imm : Byte) (i : Instr) : Except Illegal Instr :=
  if imm = 0 then .ok i else .error .operandNotZero

/-- The opcode map (R73) on the opcode and the operand byte of a word whose reserved field is zero (R78). -/
def decodeOp (op imm : Byte) : Except Illegal Instr :=
  if op = 0x01 then .ok (.init imm)
  else if op = 0x02 then .ok (.absorb imm)
  else if op = 0x03 then decodeBare imm .finalSha3
  else if op = 0x04 then decodeBare imm .finalShake
  else if op = 0x05 then decodeBare imm .squeeze
  else if op = 0x06 then .ok (.digestRead imm)
  else .error .undefinedOpcode

/-- The decoder (R78): the reserved field first, whatever the opcode (R75), then the opcode map. -/
def decode (w : CommandWord) : Except Illegal Instr :=
  if w.res = 0 then decodeOp w.op w.imm8 else .error .reservedBits

/-- The word with opcode `op` and operand byte `imm`: `(op << 24) | imm8` (R70, R80). -/
def commandWord (op imm : Byte) : CommandWord :=
  (op.setWidth 32 <<< 24) ||| imm.setWidth 32

/-- The encoder, from the opcode map (R73). -/
def encode : Instr → CommandWord
  | .init outLen => commandWord 0x01 outLen
  | .absorb data => commandWord 0x02 data
  | .finalSha3 => commandWord 0x03 0
  | .finalShake => commandWord 0x04 0
  | .squeeze => commandWord 0x05 0
  | .digestRead index => commandWord 0x06 index

/-- The instruction the decoder reads from the `nbits` bits of `w`; every bit above them is 0. -/
def decodeTableWord (nbits w : Nat) : Option Instr :=
  (decode (BitVec.ofNat 32 (w % 2 ^ nbits))).toOption

end Sys2Proof
end

