-- ==== Sys2Proof/Config.lean ====
section
/-! DEFINITION. What is fixed for one build of the block, and the free values: what the spec leaves without a value. -/

namespace Sys2Proof

/-- The build-time parameter `LANE_STORAGE`: the byte order in which the mixer stores its lane words (spec/00_scope.md R11,
spec/40_keccak_permutation.md R108). The machine holds the parameter of its build in a field of State. -/
inductive LaneStorage where
  /-- Little-endian: the stored word is the lane. The default (R11). -/
  | le
  /-- Big-endian: the stored word is the lane with its bytes reversed. -/
  | be
deriving DecidableEq, Repr

namespace Config

/-- The default of `LANE_STORAGE` (R11, R108). -/
def defaultLaneStorage : LaneStorage := .le

/-- FREE VALUE, no body: what the n-th byte-wide register that a reset edge leaves unspecified holds (R38, R200,
93_implementation_defined.md I-8 and I-9 "any value"). notes/assumptions/3.md. -/
opaque freeByte : Nat → Byte

/-- FREE VALUE, no body: what the n-th lane that a reset edge leaves unspecified holds (R38, R200, I-8, I-9).
notes/assumptions/3.md. -/
opaque freeLane : Nat → Lane

end Config

end Sys2Proof
end

