-- ==== Sys2Proof/Machine/State.lean ====
section
/-! DEFINITION. The state of keccak_permutation_engine: the mixer's 1600-bit register, the controller's context registers,
the two ports, and the host's side of the ports as data. Reset values: spec/10_state.md R38. -/

namespace Sys2Proof.Machine

/-- The context phase, a 2-bit register (spec/10_state.md R27). Its codes stand in Flags.lean. -/
inductive Phase where
  /-- No context exists; entered by reset. -/
  | idle
  /-- The context accepts input; entered by `INIT`. -/
  | absorbing
  /-- XOF output may be read; entered by `FINAL_SHAKE`. -/
  | squeezing
  /-- The fixed digest may be read; entered by `FINAL_SHA3`. -/
  | digest
deriving DecidableEq, Repr

/-- The status a response carries (spec/30_encoding.md R72). Its codes stand in Flags.lean. -/
inductive Status where
  /-- The command completed. -/
  | ok
  /-- The command is not allowed in the current phase; nothing changed (R181). -/
  | invalidState
  /-- An operand value is outside its legal range; nothing changed (R182). -/
  | misuse
  /-- The word spells no command; nothing changed (R183). -/
  | illegal
deriving DecidableEq, Repr

/-- Who drives the host side of the ports at an edge. The block serves one host; a second one is outside the model
(spec/20_memory.md R62). -/
inductive Driver where
  | owner
  | secondHost
deriving DecidableEq, Repr

/-- The host's pins at one rising edge of `clk` (spec/30_encoding.md R82). -/
structure HostEdge where
  driver : Driver
  rst : Bool
  cmdValid : Bool
  cmdData : CommandWord
  rspReady : Bool
deriving DecidableEq, Repr

/-- The state of the machine. -/
structure State where
  /-- Which commands are accepted (R27). -/
  phase : Phase
  /-- The output length in bytes, the spec's `L` (R26). -/
  L : Byte
  /-- The block size in bytes (R25). -/
  rate : Byte
  /-- The offset of the next byte to absorb or squeeze in the rate block (R28). -/
  position : Byte
  /-- The one storage of the 1600-bit state: the words `W[0..24]` as the mixer stores them (R20, R108). The lane view `A` and
  the byte view `B` are functions of it (Ops.lean). -/
  words : Lanes
  /-- `LANE_STORAGE` of this build; no step writes it (R11, R108). -/
  laneStorage : LaneStorage
  /-- The response offered and not yet taken: `rsp_valid` is whether there is one, `rsp_data` is its word (R82, R204). -/
  rsp : Option ResponseWord
  /-- The host's pins at the coming edges at which the block is free to move, the next edge first. -/
  host : List HostEdge
  /-- The responses the host has taken, the first one first: the observation of a run (R210). The host's record; the block
  keeps no status (R36). A reset edge keeps it, by the model's choice (notes/assumptions/16.md). -/
  taken : List ResponseWord
  /-- MODEL's own: how many free values reset edges have drawn. No statement rests on its value. -/
  freeCount : Nat
deriving DecidableEq, Repr

/-- Reasons to stop with a fault: none. The block has no trap, and every error is a status in a response
(spec/60_exceptions.md R186, R195 (a); spec/93_implementation_defined.md "No behaviour of the block is `fault`"). -/
inductive Fault where
deriving DecidableEq, Repr

/-- Reasons to refuse. -/
inductive Refusal where
  /-- Raised by an arm of `exec` for a command that has no meaning yet; no arm raises it. Safe. -/
  | notModelled (mnemonic : String)
  /-- Raised by `step` when a second host drives the ports: the model admits one command stream and refuses any other
  (R62, R195 (c), 93 I-13 `refuse`). Safe. -/
  | secondHost
deriving DecidableEq, Repr

/-- The machine right after reset (R38, R200): `IDLE`, no pending response, and no edge of the host yet. `L`, `rate`,
`position` and the 1600 bits are unspecified by R38; the zeros here are the model's choice (notes/assumptions/2.md), as is
the zero of `freeCount` (3.md). `LANE_STORAGE` has its default (R11; 4.md). -/
def State.reset : State where
  phase := .idle
  L := 0
  rate := 0
  position := 0
  words := Vector.replicate 25 0
  laneStorage := Config.defaultLaneStorage
  rsp := none
  host := []
  taken := []
  freeCount := 0

end Sys2Proof.Machine
end

