-- ==== Sys2Proof/Machine/Flags.lean ====
section
/-! DEFINITION. What stands in the place of flags: the block has no condition code and keeps no status
(spec/10_state.md R36), and each command reports one status in its response. Here are the codes of the phase and of the
status, the response word, and the phase a command needs. -/

namespace Sys2Proof.Machine

/-- The 2-bit code of a phase (R27). -/
def Phase.code : Phase → BitVec 2
  | .idle => 0
  | .absorbing => 1
  | .squeezing => 2
  | .digest => 3

/-- The 2-bit code of a status (R72). -/
def Status.code : Status → BitVec 2
  | .ok => 0
  | .invalidState => 1
  | .misuse => 2
  | .illegal => 3

/-- The response word `zext_16(status || data)` (R71). -/
def responseWord (status : Status) (data : Byte) : ResponseWord :=
  (status.code ++ data).setWidth 16

/-- The `status` field of a response word, bits 9:8 (R71). -/
def responseStatus (r : ResponseWord) : BitVec 2 := r.extractLsb' 8 2

/-- The `data` field of a response word, bits 7:0 (R71). -/
def responseData (r : ResponseWord) : Byte := r.extractLsb' 0 8

/-- The facade's flag "writable" is a function of the phase (spec/42_streaming_facade.md R160). -/
def Phase.writable (p : Phase) : Bool := p == .absorbing

/-- The facade's flag "readable" is a function of the phase (R160). -/
def Phase.readable (p : Phase) : Bool := p == .squeezing

end Sys2Proof.Machine
end

