-- ==== Sys2Proof/Machine/Views.lean ====
section
/-! DEFINITION. The two views of the 1600-bit register (spec/10_state.md R20, R21): a byte is a field of a lane, in
little-endian order, so the byte view is a function of the lanes and there is one storage. Addresses are naturals; byte
addresses 0..199 exist (R50). Outside them a read gives 0 and a write does nothing: no run reaches that
(notes/assumptions/5.md). -/

namespace Sys2Proof.Machine

/-- `ROTL64(v, n)` for `n` in 0..63 (spec/00_scope.md R16): left rotation. -/
def rotl64 (v : Lane) (n : Nat) : Lane :=
  if n = 0 then v else (v <<< n) ||| (v >>> (64 - n))

/-- Byte `k` of a lane, bits `8k+7:8k` (R21). -/
def laneByte (v : Lane) (k : Nat) : Byte := v.extractLsb' (8 * k) 8

/-- `zext_64(b) << (8k)`: a byte at its place in a lane (R21). -/
def placeByte (b : Byte) (k : Nat) : Lane := b.setWidth 64 <<< (8 * k)

/-- The lane with byte `k` replaced, the other bytes kept. -/
def setLaneByte (v : Lane) (k : Nat) (b : Byte) : Lane :=
  (v &&& ~~~(placeByte 0xFF k)) ||| placeByte b k

/-- The lane whose byte `k` is `f k`, each byte at its place (R21). -/
def laneOfBytes (f : Nat → Byte) : Lane :=
  placeByte (f 0) 0 ||| placeByte (f 1) 1 ||| placeByte (f 2) 2 ||| placeByte (f 3) 3 |||
  placeByte (f 4) 4 ||| placeByte (f 5) 5 ||| placeByte (f 6) 6 ||| placeByte (f 7) 7

/-- `BSWAP64(v)`: byte `k` of `v` becomes byte `7-k` of the result (R16). -/
def bswap64 (v : Lane) : Lane := laneOfBytes fun k => laneByte v (7 - k)

/-- `A[i]`, for `i` in 0..24 (R14); 0 outside. -/
def laneAt (A : Lanes) (i : Nat) : Lane := if h : i < 25 then A[i] else 0

/-- `A[i] <- v` (R14). -/
def setLaneAt (A : Lanes) (i : Nat) (v : Lane) : Lanes := if h : i < 25 then A.set i v else A

/-- `B[j]`: byte `j mod 8` of lane `j div 8` (R21). -/
def byteAt (A : Lanes) (j : Nat) : Byte := laneByte (laneAt A (j / 8)) (j % 8)

/-- `B[j] <- b` (R14, R21). -/
def setByteAt (A : Lanes) (j : Nat) (b : Byte) : Lanes :=
  setLaneAt A (j / 8) (setLaneByte (laneAt A (j / 8)) (j % 8) b)

/-- `B[j] <- B[j] ^ b`, the one way a command writes a byte (R34, R50). -/
def xorByteAt (A : Lanes) (j : Nat) (b : Byte) : Lanes := setByteAt A j (byteAt A j ^^^ b)

/-- The all-zero state, what `INIT` writes (R141). -/
def zeroLanes : Lanes := Vector.replicate 25 0

/-- The `n` bytes from `j` as one little-endian number. -/
def bytesValue (A : Lanes) (j : Nat) : Nat → Nat
  | 0 => 0
  | n + 1 => (byteAt A j).toNat + 256 * bytesValue A (j + 1) n

/-- The `n` bytes from `j` written with the little-endian number `v`. -/
def setBytesValue (A : Lanes) (j : Nat) : Nat → Nat → Lanes
  | 0, _ => A
  | n + 1, v => setBytesValue (setByteAt A j (BitVec.ofNat 8 v)) (j + 1) n (v / 256)

/-- The accesses the notation has: `n` in {1, 8} and `j + n <= 200` (R14). -/
def memAccess (j n : Nat) : Bool := (n == 1 || n == 8) && j + n ≤ 200

/-- `MemRead(j, n)` (R14): defined for the accesses of `memAccess` and for no other. -/
def memRead (A : Lanes) (j n : Nat) : Option Nat :=
  if memAccess j n then some (bytesValue A j n) else none

/-- `MemWrite(j, n, v)` (R14), defined for the same accesses. -/
def memWrite (A : Lanes) (j n v : Nat) : Option Lanes :=
  if memAccess j n then some (setBytesValue A j n v) else none

end Sys2Proof.Machine
end

