-- ==== Sys2Proof/Machine/Keccak.lean ====
section
/-! DEFINITION. `keccak_state_mixer`: the permutation `KeccakF` and its five stages (spec/40_keccak_permutation.md), with the
round-constant table of spec/10_state.md R32. The tables and formulas are the spec's supply from general knowledge
(notes/assumptions/10.md). The temporaries `C`, `D`, `t` and chi's row copy are not architectural (R35). -/

namespace Sys2Proof.Machine

/-- The table of R32 as the rule prints it: its eight lines, each with the constants of rounds `r`, `r + 8` and `r + 16`. -/
def roundConstantLines : List (Lane × Lane × Lane) := [
  (0x0000000000000001, 0x000000000000008A, 0x8000000000008002),
  (0x0000000000008082, 0x0000000000000088, 0x8000000000000080),
  (0x800000000000808A, 0x0000000080008009, 0x000000000000800A),
  (0x8000000080008000, 0x000000008000000A, 0x800000008000000A),
  (0x000000000000808B, 0x000000008000808B, 0x8000000080008081),
  (0x0000000080000001, 0x800000000000008B, 0x8000000000008080),
  (0x8000000080008081, 0x8000000000008089, 0x0000000080000001),
  (0x8000000000008009, 0x8000000000008003, 0x8000000080008008)]

/-- `RC[0..23]`, the read-only round constants (R32): the table's three columns one after another. -/
def RC : Vector Lane 24 :=
  ⟨⟨roundConstantLines.map (·.1) ++ roundConstantLines.map (·.2.1) ++ roundConstantLines.map (·.2.2)⟩, rfl⟩

/-- The column parities `C[x]` (R102). -/
def thetaC (A : Lanes) : Columns :=
  Vector.ofFn fun x => A[x.val] ^^^ A[x.val + 5] ^^^ A[x.val + 10] ^^^ A[x.val + 15] ^^^ A[x.val + 20]

/-- The correction terms `D[x] = C[(x+4) mod 5] ^ ROTL64(C[(x+1) mod 5], 1)` (R102). -/
def thetaD (C : Columns) : Columns :=
  Vector.ofFn fun x => C[(x.val + 4) % 5] ^^^ rotl64 (C[(x.val + 1) % 5]) 1

/-- Every lane receives the term of its column (R102; conflict C2). -/
def addColumns (A : Lanes) (D : Columns) : Lanes :=
  Vector.ofFn fun i => A[i] ^^^ D[i.val % 5]

/-- THETA (R102). -/
def theta (A : Lanes) : Lanes := addColumns A (thetaD (thetaC A))

/-- `CHASE[s] = (dst_s, rot_s)` (R103): the source of a step is the destination of the step before, lane 1 for the first. -/
def CHASE : List (Fin 25 × Nat) :=
  [(10, 1), (7, 3), (11, 6), (17, 10), (18, 15), (3, 21), (5, 28), (16, 36),
   (8, 45), (21, 55), (24, 2), (4, 14), (15, 27), (23, 41), (19, 56), (13, 8),
   (12, 25), (2, 43), (20, 62), (14, 18), (22, 39), (9, 61), (6, 20), (1, 44)]

/-- One step of the chase: the scratch lane `t`, rotated, goes into the destination, whose old value is the next `t`
(R103). -/
def chaseStep (At : Lanes × Lane) (step : Fin 25 × Nat) : Lanes × Lane :=
  (At.1.set step.1 (rotl64 At.2 step.2), At.1[step.1])

/-- RHO-PI as the source's single chase (R103). Lane 0 is not touched. -/
def rhoPi (A : Lanes) : Lanes := (CHASE.foldl chaseStep (A, A[1])).1

/-- `RHO[i]`, the rotation offsets (R104, R105). -/
def RHO : Vector Nat 25 := #v[
  0, 1, 62, 28, 27, 36, 44, 6, 55, 20, 3, 10, 43, 25, 39, 41, 45, 15, 21, 8, 18, 2, 61, 56, 14]

/-- `PI[i] = y + 5*((2x + 3y) mod 5)` at column `x = i mod 5` and row `y = i div 5` (R104). -/
def piDst (i : Fin 25) : Fin 25 :=
  ⟨i.val / 5 + 5 * ((2 * (i.val % 5) + 3 * (i.val / 5)) % 5), by omega⟩

/-- RHO-PI with a full scratch copy (R104): `A'[PI[i]] = ROTL64(A[i], RHO[i])` for every lane. -/
def rhoPiScratch (A : Lanes) : Lanes :=
  (List.finRange 25).foldl (fun A' i => A'.set (piDst i) (rotl64 A[i] RHO[i])) A

/-- CHI (R106): every lane is computed from its row as it was before the stage. -/
def chi (A : Lanes) : Lanes :=
  Vector.ofFn fun i =>
    A[i] ^^^ (~~~A[5 * (i.val / 5) + (i.val % 5 + 1) % 5] &&& A[5 * (i.val / 5) + (i.val % 5 + 2) % 5])

/-- IOTA with the round constant `rc` (R107): lane 0 only. -/
def iota (A : Lanes) (rc : Lane) : Lanes := A.set 0 (A[0] ^^^ rc)

/-- The round whose constant is `rc`: theta, rho-pi, chi, iota in this order (R101). -/
def keccakRound (A : Lanes) (rc : Lane) : Lanes := iota (chi (rhoPi (theta A))) rc

/-- The 24 rounds in increasing order (R100), on canonical lanes: `KeccakF` on the lane view. -/
def keccakRounds (A : Lanes) : Lanes := RC.toList.foldl keccakRound A

/-- LANE-SWAP (R108): the map between canonical lanes and stored words, its own inverse; the identity for `LE`. Used as
`LaneSwapIn` before round 0 and as `LaneSwapOut` after round 23. -/
def laneSwap (storage : LaneStorage) (W : Lanes) : Lanes :=
  match storage with
  | .le => W
  | .be => Vector.ofFn fun i => bswap64 W[i]

/-- `KeccakF` in place on the mixer's stored words (R100, R108). -/
def keccakF (storage : LaneStorage) (W : Lanes) : Lanes :=
  laneSwap storage (keccakRounds (laneSwap storage W))

end Sys2Proof.Machine
end

