-- ==== Sys2Proof/Machine/Ops.lean ====
section
/-! DEFINITION. The named operations over the state that every command shares: the lane and byte views of the one stored
register, the permutation, answering, refusing, handing the response over, and reset. -/

namespace Sys2Proof.Machine

/-- The lane view `A` of the stored words (spec/10_state.md R20; spec/40_keccak_permutation.md R108). -/
def State.lanes (s : State) : Lanes := laneSwap s.laneStorage s.words

/-- Store the lanes `A`. -/
def State.setLanes (s : State) (A : Lanes) : State := { s with words := laneSwap s.laneStorage A }

/-- The byte view `B[j]` (R21). -/
def State.byte (s : State) (j : Nat) : Byte := byteAt s.lanes j

/-- `B[j] <- B[j] ^ b` (R34). -/
def State.xorByte (s : State) (j : Nat) (b : Byte) : State := s.setLanes (xorByteAt s.lanes j b)

/-- `position <- p` (R28). -/
def State.setPosition (s : State) (p : Byte) : State := { s with position := p }

/-- `phase <- p` (R27). -/
def State.setPhase (s : State) (p : Phase) : State := { s with phase := p }

/-- `Permute()`: the mixer runs `KeccakF` in place on its stored words (spec/00_scope.md R15, R100, R110). -/
def State.permute (s : State) : State := { s with words := keccakF s.laneStorage s.words }

/-- Offer `r` on the response port (R82, R204). -/
def State.offer (s : State) (r : ResponseWord) : State := { s with rsp := some r }

/-- `respond(d)`: the command ends with `OK` and data byte `d` (R15). -/
def respond (d : Byte) (s : State) : Host.Outcome State Fault Refusal :=
  .next (s.offer (responseWord .ok d))

/-- `raise`: the command ends with the status, data byte 0x00, and every piece of state as it was (R15, R140, R180). This is
the whole of taking an error: nothing is saved and nothing is redirected (spec/60_exceptions.md R186), so there is no return
(R187). -/
def raise (status : Status) (s : State) : Host.Outcome State Fault Refusal :=
  .next (s.offer (responseWord status 0x00))

/-- The host takes the pending response (R204); with none pending there is nothing to take. -/
def State.takeResponse (s : State) : State :=
  match s.rsp with
  | some r => { s with rsp := none, taken := s.taken ++ [r] }
  | none => s

/-- The lanes a reset edge leaves: 25 free values from the n-th on (R200; notes/assumptions/3.md). -/
def freeLanes (n : Nat) : Lanes := Vector.ofFn fun i => Config.freeLane (n + i.val)

/-- A rising edge with `rst` high (spec/70_reset_and_hazards.md R200): `phase <- IDLE`, a response not yet taken is discarded,
and `L`, `rate`, `position` and the state are left with free values (R38, I-8, I-9). DESIGN CHOICE: `taken` is kept, where R210
does not say what a reset during a run does to the observation (notes/assumptions/16.md). -/
def State.resetEdge (s : State) : State :=
  { s with
    phase := .idle
    rsp := none
    L := Config.freeByte s.freeCount
    rate := Config.freeByte (s.freeCount + 1)
    position := Config.freeByte (s.freeCount + 2)
    words := laneSwap s.laneStorage (freeLanes s.freeCount)
    freeCount := s.freeCount + 25 }

end Sys2Proof.Machine
end

