-- ==== Sys2Proof/Machine/Operands.lean ====
section
/-! DEFINITION. The operand forms (spec/30_encoding.md R74, spec/41_sponge_commands.md R152): the immediate byte with its
legal range, and the three ways a command addresses a byte of the state. -/

namespace Sys2Proof.Machine

/-- The output lengths `INIT` accepts: 0..99 (spec/10_state.md R26, R141, R182 (a)). -/
def initLengthLegal (outLen : Byte) : Bool := outLen ≤ 99

/-- The indices `DIGEST_READ` accepts: 0..L-1 (R146, R182 (b)). -/
def digestIndexLegal (s : State) (index : Byte) : Bool := index < s.L

/-- `rate = 200 - 2*L` (spec/00_scope.md R10, R141). -/
def rateOf (outLen : Byte) : Byte := 200 - 2 * outLen

/-- The address `position` of `ABSORB`, `FINAL_*` and `SQUEEZE` (R152). -/
def State.cursor (s : State) : Nat := s.position.toNat

/-- The address `rate - 1` of the padding byte (spec/20_memory.md R59, R152). -/
def State.padAddress (s : State) : Nat := s.rate.toNat - 1

/-- The immediate address `k` of `DIGEST_READ` (R152). -/
def digestAddress (index : Byte) : Nat := index.toNat

/-- Post-increment of the cursor (R152). -/
def State.advance (s : State) : State := s.setPosition (s.position + 1)

/-- A full block on the way in: `ABSORB` permutes and resets the cursor when `position` has reached `rate` (R142). -/
def State.closeBlock (s : State) : State :=
  if s.position = s.rate then s.permute.setPosition 0 else s

/-- A used-up block on the way out: `SQUEEZE` permutes and resets the cursor when `position >= rate` (R145). -/
def State.openBlock (s : State) : State :=
  if s.rate ≤ s.position then s.permute.setPosition 0 else s

/-- The two finalize commands (R143, R144): the suffix byte at the cursor, 0x80 at the padding byte, one permutation,
`position <- 0`, and the phase. -/
def State.finalize (s : State) (suffix : Byte) (p : Phase) : State :=
  (((s.xorByte s.cursor suffix).xorByte s.padAddress 0x80).permute.setPosition 0).setPhase p

end Sys2Proof.Machine
end

