-- ==== Sys2Proof/Machine/Sponge.lean ====
section
/-! DEFINITION. `sponge_absorb_squeeze_controller`: the meaning of each of the six commands, after the pseudocode of
spec/41_sponge_commands.md R141 to R146. Every check comes before the first write (R140). -/

namespace Sys2Proof.Machine

/-- `INIT L` (R141). Allowed in every phase. -/
def execInit (outLen : Byte) (s : State) : Host.Outcome State Fault Refusal :=
  if initLengthLegal outLen then
    respond 0x00
      { s.setLanes zeroLanes with L := outLen, rate := rateOf outLen, position := 0, phase := .absorbing }
  else raise .misuse s

/-- `ABSORB d` (R142). -/
def execAbsorb (data : Byte) (s : State) : Host.Outcome State Fault Refusal :=
  if s.phase = .absorbing then respond 0x00 (s.xorByte s.cursor data).advance.closeBlock
  else raise .invalidState s

/-- `FINAL_SHA3` (R143). -/
def execFinalSha3 (s : State) : Host.Outcome State Fault Refusal :=
  if s.phase = .absorbing then respond 0x00 (s.finalize 0x06 .digest)
  else raise .invalidState s

/-- `FINAL_SHAKE` (R144). -/
def execFinalShake (s : State) : Host.Outcome State Fault Refusal :=
  if s.phase = .absorbing then respond 0x00 (s.finalize 0x1F .squeezing)
  else raise .invalidState s

/-- `SQUEEZE` (R145): the byte is read before the cursor advances. -/
def execSqueeze (s : State) : Host.Outcome State Fault Refusal :=
  if s.phase = .squeezing then respond (s.openBlock.byte s.openBlock.cursor) s.openBlock.advance
  else raise .invalidState s

/-- `DIGEST_READ k` (R146): the phase is checked before the index (R184). -/
def execDigestRead (index : Byte) (s : State) : Host.Outcome State Fault Refusal :=
  if s.phase = .digest then
    if digestIndexLegal s index then respond (s.byte (digestAddress index)) s
    else raise .misuse s
  else raise .invalidState s

end Sys2Proof.Machine
end

