-- ==== Sys2Proof/Machine/Dispatch.lean ====
section
/-! DEFINITION. One arm per command, each one call of its meaning. -/

namespace Sys2Proof.Machine

def exec (i : Instr) (s : State) : Host.Outcome State Fault Refusal :=
  match i with
  | .init outLen => Sys2Proof.Machine.execInit outLen s
  | .absorb data => Sys2Proof.Machine.execAbsorb data s
  | .finalSha3 => Sys2Proof.Machine.execFinalSha3 s
  | .finalShake => Sys2Proof.Machine.execFinalShake s
  | .squeeze => Sys2Proof.Machine.execSqueeze s
  | .digestRead index => Sys2Proof.Machine.execDigestRead index s

end Sys2Proof.Machine
end

