-- ==== Sys2Proof/Machine/Ports.lean ====
section
/-! DEFINITION. The ports at one rising edge of `clk` (spec/30_encoding.md R82, spec/70_reset_and_hazards.md R200 to R206).
An edge at which the block is busy transfers nothing and is not listed (notes/assumptions/1.md). -/

namespace Sys2Proof.Machine

/-- A host that drives nothing (R210 "idle"). -/
def idleEdge : HostEdge :=
  { driver := .owner, rst := false, cmdValid := false, cmdData := 0, rspReady := false }

/-- The host offers the command word `w`. -/
def sendEdge (w : CommandWord) : HostEdge := { idleEdge with cmdValid := true, cmdData := w }

/-- The host is ready for a response. -/
def takeEdge : HostEdge := { idleEdge with rspReady := true }

/-- The host holds `rst` high. -/
def rstEdge : HostEdge := { idleEdge with rst := true }

/-- The host's pins at the edge that comes next; a host with nothing listed is idle. -/
def State.edge (s : State) : HostEdge := s.host.headD idleEdge

/-- The edge has passed. -/
def State.passEdge (s : State) : State := { s with host := s.host.tail }

/-- `cmd_ready`: low while `rst` is high and until the pending response is transferred (R200 (d), R203, R206). -/
def State.cmdReady (s : State) : Bool := !s.edge.rst && s.rsp.isNone

/-- `rsp_valid`: high while a response is pending, low while `rst` is high (R200 (d), R204). -/
def State.rspValid (s : State) : Bool := !s.edge.rst && s.rsp.isSome

/-- `rsp_data`, defined while `rsp_valid` is high (R204). -/
def State.rspData (s : State) : Option ResponseWord := if s.rspValid then s.rsp else none

/-- What happens at the next edge. -/
inductive PortEvent where
  /-- A second host drives the ports (R62). -/
  | secondHost
  /-- `rst` is high (R200). -/
  | reset
  /-- A command is transferred (R203). -/
  | command (w : CommandWord)
  /-- The response is transferred (R204). -/
  | response
  /-- Nothing is transferred: the host is idle, or one side waits for the other (R194, R206). -/
  | wait
deriving DecidableEq, Repr

/-- The transfer rules R200, R203 and R204. -/
def State.portEvent (s : State) : PortEvent :=
  if s.edge.driver = .secondHost then .secondHost
  else if s.edge.rst then .reset
  else if s.edge.cmdValid && s.cmdReady then .command s.edge.cmdData
  else if s.rspValid && s.edge.rspReady then .response
  else .wait

end Sys2Proof.Machine
end

