-- ==== Sys2Proof/Machine/Run.lean ====
section
/-! DEFINITION. Running the command word of a transfer: spec/41_sponge_commands.md R140. -/

namespace Sys2Proof.Machine

/-- R140: decode the word; an illegal word raises `ILLEGAL` (R183), any other runs its command's rule. -/
def runWord (w : CommandWord) (s : State) : Host.Outcome State Fault Refusal :=
  match decode w with
  | .ok i => exec i s
  | .error _ => raise .illegal s

/-- One transaction: the host sends `w` and takes the one response (R60, R210). -/
def transact (w : CommandWord) (s : State) : Host.Outcome State Fault Refusal :=
  match runWord w s with
  | .next t => .next t.takeResponse
  | .fault r => .fault r
  | .refused r => .refused r

/-- The words of a command sequence, one transaction after another (R60, R210). -/
def transactAll : List CommandWord → State → Host.Outcome State Fault Refusal
  | [], s => .next s
  | w :: ws, s =>
    match transact w s with
    | .next t => transactAll ws t
    | .fault r => .fault r
    | .refused r => .refused r

end Sys2Proof.Machine
end

