-- ==== Sys2Proof/Machine/Step.lean ====
section
/-! DEFINITION. One step: one rising edge of `clk` at which the block is free (spec/92_eei_decisions.md D1,
spec/70_reset_and_hazards.md R203 to R206, R210). -/

namespace Sys2Proof.Machine

def step (s : State) : Host.Outcome State Fault Refusal :=
  match s.portEvent with
  | .secondHost => .refused .secondHost
  | .reset => .next s.passEdge.resetEdge
  | .command w => runWord w s.passEdge
  | .response => .next s.passEdge.takeResponse
  | .wait => .next s.passEdge

/-- `s` with the host offering the word at the very next edge. A response still pending is taken first, because the block
accepts no command before that (R203). notes/assumptions/8.md. -/
def State.withFetchWord (s : State) (nbits w : Nat) : State :=
  { s.takeResponse with host := sendEdge (BitVec.ofNat 32 (w % 2 ^ nbits)) :: s.host }

end Sys2Proof.Machine
end

