-- ==== Sys2Proof/Machine/Assembler.lean ====
section
/-! DEFINITION. The assembler: source lines, their checks and their expansion (spec/30_encoding.md R80, R81), which are also
the streaming facade and the one-shot entry points (spec/42_streaming_facade.md R160 to R168), and the text of a line.
An operand of a source line is a number, not yet a byte: that it fits is one of the checks. The text conventions R80 leaves
open are the model's (notes/assumptions/12.md). -/

namespace Sys2Proof.Machine

/-- A source line: a command (R80) or a pseudo-instruction (R81). -/
inductive AsmLine where
  | init (outLen : Nat)
  | absorb (data : Nat)
  | finalSha3
  | finalShake
  | squeeze
  | digestRead (index : Nat)
  | absorbBytes (h : List Byte)
  | absorbStr (codes : List Nat)
  | squeezeN (n : Nat)
  | digestAll
  | hash (outLen : Nat) (h : List Byte)
  | shake (bits : Nat) (h : List Byte) (n : Nat)
  | streamOpen (bits : Nat)
  | streamWrite (h : List Byte)
  | streamFinish
  | streamRead (n : Nat)
deriving DecidableEq, Repr

/-- Why the assembler refuses. -/
inductive AsmError where
  /-- An operand above 255 (R80). -/
  | operandTooLarge
  /-- `HASH` with `L` outside 28, 32, 48, 64 (R81, R165). -/
  | hashLength
  /-- `SHAKE` or `STREAM.OPEN` with `bits` outside 128, 256 (R81, R166). -/
  | shakeBits
  /-- `ABSORB.STR` of a character that is not ASCII (R81). -/
  | notAscii
  /-- `DIGEST.ALL` with no `INIT` before it in the program (R81). -/
  | noInit
  /-- A line of text that is no command and no pseudo-instruction (R80). -/
  | badLine
deriving DecidableEq, Repr

/-- R80: every operand is 0..255. -/
def operandFits (n : Nat) : Bool := n ≤ 255

/-- R81: the `L` of `HASH`. -/
def hashLengthLegal (outLen : Nat) : Bool := outLen == 28 || outLen == 32 || outLen == 48 || outLen == 64

/-- R81: the `bits` of `SHAKE` and `STREAM.OPEN`. -/
def shakeBitsLegal (bits : Nat) : Bool := bits == 128 || bits == 256

/-- R81: the characters of `ABSORB.STR`. -/
def asciiOnly (codes : List Nat) : Bool := codes.all (· < 128)

/-- A check, then the commands. -/
def checked (check : Bool) (refusal : AsmError) (is : List Instr) : Except AsmError (List Instr) :=
  if check then .ok is else .error refusal

/-- `ABSORB.BYTES h` (R81). -/
def absorbAll (h : List Byte) : List Instr := h.map .absorb

/-- `SQUEEZE.N n` (R81). -/
def squeezeTimes (n : Nat) : List Instr := List.replicate n .squeeze

/-- `DIGEST_READ 0`, ..., `DIGEST_READ outLen-1` (R81). -/
def digestReads (outLen : Nat) : List Instr := (List.range outLen).map fun k => .digestRead (BitVec.ofNat 8 k)

/-- The commands a line stands for (R80, R81); `lastInit` is the operand of the most recent `INIT` before it. -/
def AsmLine.expand (lastInit : Option Nat) : AsmLine → Except AsmError (List Instr)
  | .init outLen => checked (operandFits outLen) .operandTooLarge [.init (BitVec.ofNat 8 outLen)]
  | .absorb data => checked (operandFits data) .operandTooLarge [.absorb (BitVec.ofNat 8 data)]
  | .finalSha3 => .ok [.finalSha3]
  | .finalShake => .ok [.finalShake]
  | .squeeze => .ok [.squeeze]
  | .digestRead index => checked (operandFits index) .operandTooLarge [.digestRead (BitVec.ofNat 8 index)]
  | .absorbBytes h => .ok (absorbAll h)
  | .absorbStr codes => checked (asciiOnly codes) .notAscii (absorbAll (codes.map (BitVec.ofNat 8)))
  | .squeezeN n => .ok (squeezeTimes n)
  | .digestAll =>
    match lastInit with
    | some outLen => .ok (digestReads outLen)
    | none => .error .noInit
  | .hash outLen h =>
    checked (hashLengthLegal outLen) .hashLength
      ([.init (BitVec.ofNat 8 outLen)] ++ absorbAll h ++ [.finalSha3] ++ digestReads outLen)
  | .shake bits h n =>
    checked (shakeBitsLegal bits) .shakeBits
      ([.init (BitVec.ofNat 8 (bits / 8))] ++ absorbAll h ++ [.finalShake] ++ squeezeTimes n)
  | .streamOpen bits => checked (shakeBitsLegal bits) .shakeBits [.init (BitVec.ofNat 8 (bits / 8))]
  | .streamWrite h => .ok (absorbAll h)
  | .streamFinish => .ok [.finalShake]
  | .streamRead n => .ok (squeezeTimes n)

/-- The operand of the `INIT` a line holds, if it holds one (notes/assumptions/13.md). -/
def AsmLine.initOperand : AsmLine → Option Nat
  | .init outLen => some outLen
  | .hash outLen _ => some outLen
  | .shake bits _ _ => some (bits / 8)
  | .streamOpen bits => some (bits / 8)
  | .absorb _ | .finalSha3 | .finalShake | .squeeze | .digestRead _ | .absorbBytes _ | .absorbStr _
  | .squeezeN _ | .digestAll | .streamWrite _ | .streamFinish | .streamRead _ => none

/-- A program's commands, line after line; the first refused line refuses the program. -/
def assembleFrom (lastInit : Option Nat) : List AsmLine → Except AsmError (List Instr)
  | [] => .ok []
  | line :: rest =>
    match line.expand lastInit, assembleFrom (line.initOperand.or lastInit) rest with
    | .ok is, .ok js => .ok (is ++ js)
    | .ok _, .error e => .error e
    | .error e, _ => .error e

/-- The commands of a program (R80, R81). -/
def assemble (program : List AsmLine) : Except AsmError (List Instr) := assembleFrom none program

/-- The command words of a program: each command assembles to `(op << 24) | imm8` (R80). -/
def assembleWords (program : List AsmLine) : Except AsmError (List CommandWord) :=
  (assemble program).map (List.map encode)

/-! ### The text of a line -/

/-- White space inside a line. -/
def isBlank (c : Char) : Bool := c == ' ' || c == '\t' || c == '\r'

/-- A field without the white space around it. -/
def trimBlank (cs : List Char) : List Char :=
  ((cs.dropWhile isBlank).reverse.dropWhile isBlank).reverse

/-- The value of a decimal digit. -/
def decDigit (c : Char) : Option Nat :=
  if '0' ≤ c ∧ c ≤ '9' then some (c.toNat - 48) else none

/-- The value of a hex digit, either case. -/
def hexDigit (c : Char) : Option Nat :=
  if 'a' ≤ c ∧ c ≤ 'f' then some (c.toNat - 87)
  else if 'A' ≤ c ∧ c ≤ 'F' then some (c.toNat - 55)
  else decDigit c

/-- The digits read in a base, after the value so far. -/
def digitsValue (digit : Char → Option Nat) (base : Nat) : Nat → List Char → Option Nat
  | acc, [] => some acc
  | acc, c :: cs =>
    match digit c with
    | some d => digitsValue digit base (base * acc + d) cs
    | none => none

/-- A number in decimal or `0x` hex (R17, R80). -/
def parseNumber (cs : List Char) : Option Nat :=
  match cs with
  | [] => none
  | '0' :: 'x' :: h :: hs => digitsValue hexDigit 16 0 (h :: hs)
  | c :: cs => digitsValue decDigit 10 0 (c :: cs)

/-- Hex pairs in order of increasing index (R17). -/
def hexPairs : List Char → Option (List Byte)
  | [] => some []
  | [_] => none
  | a :: b :: rest =>
    match hexDigit a, hexDigit b, hexPairs rest with
    | some x, some y, some bs => some (BitVec.ofNat 8 (16 * x + y) :: bs)
    | _, _, _ => none

/-- A hex string; the empty one is written with two quotes or with nothing. -/
def parseHexString (cs : List Char) : Option (List Byte) :=
  if cs = ['"', '"'] then some [] else hexPairs cs

/-- The character codes between the quotes of `ABSORB.STR "s"`. -/
def parseQuoted (cs : List Char) : Option (List Nat) :=
  match cs with
  | '"' :: rest =>
    if rest.getLast? = some '"' then some (rest.dropLast.map Char.toNat) else none
  | _ => none

/-- The line up to its comment: `;` starts one, except between quotes (R80). -/
def stripComment (quoted : Bool) : List Char → List Char
  | [] => []
  | c :: cs =>
    if c == ';' && !quoted then []
    else c :: stripComment (if c == '"' then !quoted else quoted) cs

/-- The operand fields of a line, split at commas. -/
def splitAt (sep : Char) : List Char → List (List Char)
  | [] => [[]]
  | c :: cs =>
    match splitAt sep cs with
    | [] => [[c]]
    | field :: fields => if c == sep then [] :: field :: fields else (c :: field) :: fields

/-- The line a mnemonic and its operand text spell (R80, R81). -/
def lineOf (mnemonic : String) (operands : List Char) : Option AsmLine :=
  let bare := operands.isEmpty
  let number := parseNumber operands
  let hex := parseHexString operands
  let fields := (splitAt ',' operands).map trimBlank
  match mnemonic with
  | "INIT" => number.map .init
  | "ABSORB" => number.map .absorb
  | "FINAL_SHA3" => if bare then some .finalSha3 else none
  | "FINAL_SHAKE" => if bare then some .finalShake else none
  | "SQUEEZE" => if bare then some .squeeze else none
  | "DIGEST_READ" => number.map .digestRead
  | "ABSORB.BYTES" => hex.map .absorbBytes
  | "ABSORB.STR" => (parseQuoted operands).map .absorbStr
  | "SQUEEZE.N" => number.map .squeezeN
  | "DIGEST.ALL" => if bare then some .digestAll else none
  | "HASH" =>
    match fields with
    | [outLen, h] => (parseNumber outLen).bind fun l => (parseHexString h).map (.hash l)
    | _ => none
  | "SHAKE" =>
    match fields with
    | [bits, h, n] =>
      (parseNumber bits).bind fun b => (parseHexString h).bind fun bs => (parseNumber n).map (.shake b bs)
    | _ => none
  | "STREAM.OPEN" => number.map .streamOpen
  | "STREAM.WRITE" => hex.map .streamWrite
  | "STREAM.FINISH" => if bare then some .streamFinish else none
  | "STREAM.READ" => number.map .streamRead
  | _ => none

/-- A line of text: nothing for a blank or comment line, else the line it spells. -/
def parseLine (cs : List Char) : Except AsmError (Option AsmLine) :=
  let code := trimBlank (stripComment false cs)
  if code.isEmpty then .ok none
  else
    match lineOf (String.ofList (code.takeWhile (!isBlank ·))) (trimBlank (code.dropWhile (!isBlank ·))) with
    | some line => .ok (some line)
    | none => .error .badLine

/-- One command per line (R80). -/
def parseLines : List (List Char) → Except AsmError (List AsmLine)
  | [] => .ok []
  | cs :: rest =>
    match parseLine cs, parseLines rest with
    | .ok (some line), .ok lines => .ok (line :: lines)
    | .ok none, .ok lines => .ok lines
    | .ok _, .error e => .error e
    | .error e, _ => .error e

/-- A program as text, to command words. -/
def assembleText (text : List Char) : Except AsmError (List CommandWord) :=
  match parseLines (splitAt '\n' text) with
  | .ok program => assembleWords program
  | .error e => .error e

end Sys2Proof.Machine
end

