-- ==== Sys2Proof/Safety.lean ====
section
/-! DEFINITION. The terms the claims use: the invariant of the context registers, what a host can tell apart, runs of
commands, and the block form of the sponge functions, written without the block's cursor, that the commands are measured
against. -/

namespace Sys2Proof.Machine

/-! ### The invariant -/

/-- `L` is legal and `rate = 200 - 2*L` (spec/10_state.md R25, R26, R29). -/
abbrev State.ContextOk (s : State) : Prop :=
  s.L.toNat ≤ 99 ∧ s.rate.toNat = 200 - 2 * s.L.toNat

/-- The invariants of R29, one for each phase; in `IDLE` there is none. -/
abbrev State.Inv (s : State) : Prop :=
  (s.phase ≠ .idle → s.ContextOk) ∧
  (s.phase = .absorbing → s.position.toNat < s.rate.toNat) ∧
  (s.phase = .squeezing → s.position.toNat ≤ s.rate.toNat) ∧
  (s.phase = .digest → s.position = 0)

/-! ### What can be told apart -/

/-- Two outcomes of the same kind, whose states are related by `R` and whose reasons are equal. -/
def SameOutcome (R : State → State → Prop) :
    Host.Outcome State Fault Refusal → Host.Outcome State Fault Refusal → Prop
  | .next s, .next t => R s t
  | .fault a, .fault b => a = b
  | .refused a, .refused b => a = b
  | _, _ => False

/-- Equal but for what R38 leaves unspecified: in `IDLE` the registers `L`, `rate`, `position` and the 1600 bits may differ;
in any other phase they may not. The count of free values is the model's own and may always differ. -/
def SameButUnspecified (s t : State) : Prop :=
  t = { s with L := t.L, rate := t.rate, position := t.position, words := t.words, freeCount := t.freeCount } ∧
  (s.phase ≠ .idle → s.L = t.L ∧ s.rate = t.rate ∧ s.position = t.position ∧ s.words = t.words)

/-- Equal but for `LANE_STORAGE` and the stored words, with the same canonical lanes
(spec/40_keccak_permutation.md R108, R109). -/
def SameButStorage (s t : State) : Prop :=
  t = { s with words := t.words, laneStorage := t.laneStorage } ∧ s.lanes = t.lanes

/-- What no command of the block touches: the host's pins to come, the responses taken, the build's lane storage and the
model's count of free values. -/
abbrev SameSurroundings (s t : State) : Prop :=
  t.host = s.host ∧ t.taken = s.taken ∧ t.laneStorage = s.laneStorage ∧ t.freeCount = s.freeCount

/-! ### Runs -/

/-- Commands one after another, the host taking each response (spec/20_memory.md R60,
spec/70_reset_and_hazards.md R210). -/
def runCommands : List Instr → State → Host.Outcome State Fault Refusal
  | [], s => .next s
  | i :: is, s =>
    match exec i s with
    | .next t => runCommands is t.takeResponse
    | .fault r => .fault r
    | .refused r => .refused r

/-- The host's pins that carry out the transactions of the words `ws`: offer a word, take its response. -/
def hostProgram (ws : List CommandWord) : List HostEdge :=
  ws.flatMap fun w => [sendEdge w, takeEdge]

/-! ### The phase table -/

/-- The status the phase table gives a command (spec/41_sponge_commands.md R147), from its phase and, for the operand
checks, from the context's `L`. -/
def statusTable (p : Phase) (L : Byte) : Instr → Status
  | .init outLen => if outLen.toNat ≤ 99 then .ok else .misuse
  | .absorb _ | .finalSha3 | .finalShake =>
    match p with
    | .absorbing => .ok
    | .idle | .squeezing | .digest => .invalidState
  | .squeeze =>
    match p with
    | .squeezing => .ok
    | .idle | .absorbing | .digest => .invalidState
  | .digestRead index =>
    match p with
    | .digest => if index.toNat < L.toNat then .ok else .misuse
    | .idle | .absorbing | .squeezing => .invalidState

/-- The phase after a command that is answered `OK` in phase `p` (R147). -/
def phaseAfterOk (p : Phase) : Instr → Phase
  | .init _ => .absorbing
  | .finalSha3 => .digest
  | .finalShake => .squeezing
  | .absorb _ | .squeeze | .digestRead _ => p

/-! ### The sponge functions in block form -/

/-- The bytes the finalize commands add to a message that leaves `q >= 1` bytes of its last block free: the suffix byte and
0x80 at the end of the block, in one byte when `q = 1` (R143, R144). -/
def padTail (suffix : Byte) (q : Nat) : List Byte :=
  if q = 1 then [suffix ^^^ 0x80] else suffix :: (List.replicate (q - 2) 0x00 ++ [0x80])

/-- The padded message, a whole number of blocks. -/
def padMessage (rate : Nat) (suffix : Byte) (message : List Byte) : List Byte :=
  message ++ padTail suffix (rate - message.length % rate)

/-- A block XORed into the state from byte 0 on, lane by lane. -/
def xorBlock (A : Lanes) (block : List Byte) : Lanes :=
  Vector.ofFn fun i => A[i] ^^^ laneOfBytes fun k => block.getD (8 * i.val + k) 0x00

/-- `n` blocks of `rate` bytes absorbed, a permutation after each. -/
def absorbBlocks (rate : Nat) : Nat → Lanes → List Byte → Lanes
  | 0, A, _ => A
  | n + 1, A, bytes => absorbBlocks rate n (keccakRounds (xorBlock A (bytes.take rate))) (bytes.drop rate)

/-- The state after the whole padded message. -/
def spongeState (rate : Nat) (suffix : Byte) (message : List Byte) : Lanes :=
  absorbBlocks rate (message.length / rate + 1) zeroLanes (padMessage rate suffix message)

/-- Output byte `n`: a permutation after each `rate` bytes of output (R145). -/
def spongeByte (rate : Nat) (suffix : Byte) (message : List Byte) (n : Nat) : Byte :=
  byteAt (keccakRounds^[n / rate] (spongeState rate suffix message)) (n % rate)

end Sys2Proof.Machine
end

