-- ==== Sys2Proof/Certificates/Slice0/Obligations.lean ====
section
/-! DEFINITION. The statements for the provers, from the numbered rules of spec/. -/

open Sys2Proof Sys2Proof.Machine

/-! ### Command words (spec/30_encoding.md) -/

/-- Words written out from the opcode map R73 decode to their commands. -/
def Obligations.WordsOfTheOpcodeMapDecode : Prop :=
  decode 0x01000020 = .ok (.init 32) ∧ decode 0x010000FF = .ok (.init 255) ∧
  decode 0x02000061 = .ok (.absorb 0x61) ∧ decode 0x03000000 = .ok .finalSha3 ∧
  decode 0x04000000 = .ok .finalShake ∧ decode 0x05000000 = .ok .squeeze ∧
  decode 0x0600001F = .ok (.digestRead 31)

/-- Encoding then decoding gives the command back, every operand byte included (R73, R74, R78). -/
def Obligations.DecodeAfterEncodeIsIdentity : Prop :=
  ∀ i : Instr, decode (encode i) = .ok i

/-- Each command has one word: a word that decodes is the encoding of what it decodes to (R73, R77). -/
def Obligations.EncodeAfterDecodeIsIdentity : Prop :=
  ∀ (w : CommandWord) (i : Instr), decode w = .ok i → encode i = w

/-- R75, R76 and R183, with the fields of R70 read as numbers: which words are illegal, and what every phase answers. -/
def Obligations.IllegalWordsAreExactly : Prop :=
  ∀ w : CommandWord,
    ((∃ e, decode w = .error e) ↔
      (w.toNat / 2 ^ 24 = 0 ∨ 7 ≤ w.toNat / 2 ^ 24) ∨
      w.toNat / 2 ^ 8 % 2 ^ 16 ≠ 0 ∨
      ((w.toNat / 2 ^ 24 = 3 ∨ w.toNat / 2 ^ 24 = 4 ∨ w.toNat / 2 ^ 24 = 5) ∧ w.toNat % 2 ^ 8 ≠ 0)) ∧
    ∀ s : State, (∃ e, decode w = .error e) → runWord w s = .next (s.offer 0x0300)

/-- The count of R78: 771 words are legal. -/
def Obligations.LegalWordsNumber771 : Prop :=
  ∃ ws : List CommandWord, ws.Nodup ∧ ws.length = 771 ∧ ∀ w, w ∈ ws ↔ ∃ i, decode w = .ok i

/-- R71 and R72: the layout of a response word, the codes, and the data byte: with status `OK` the output byte of `SQUEEZE`
(the byte the cursor has just moved past) or of `DIGEST_READ k` (byte `k`), and 0x00 in every other case. -/
def Obligations.ResponseWordLayout : Prop :=
  (Status.ok.code = 0 ∧ Status.invalidState.code = 1 ∧ Status.misuse.code = 2 ∧ Status.illegal.code = 3) ∧
  (∀ (status : Status) (d : Byte),
    (responseWord status d).toNat = 256 * status.code.toNat + d.toNat ∧
    responseStatus (responseWord status d) = status.code ∧ responseData (responseWord status d) = d) ∧
  ∀ (w : CommandWord) (s t : State), runWord w s = .next t →
    ∃ status d, t.rsp = some (responseWord status d) ∧
      (status = .ok → decode w = .ok .squeeze → d = t.byte (t.position.toNat - 1)) ∧
      (∀ k, status = .ok → decode w = .ok (.digestRead k) → d = s.byte k.toNat) ∧
      (d ≠ 0x00 → status = .ok ∧ (decode w = .ok .squeeze ∨ ∃ k, decode w = .ok (.digestRead k)))

/-! ### The two views (spec/00_scope.md, spec/10_state.md) -/

/-- R21: byte `8i+k` is byte `k` of lane `i`, and the lane is the little-endian number of its bytes. -/
def Obligations.ByteAndLaneViewsAgree : Prop :=
  ∀ (A : Lanes) (i k : Nat), i < 25 → k < 8 →
    (laneAt A i).extractLsb' (8 * k) 8 = byteAt A (8 * i + k) ∧
    memRead A (8 * i) 8 = some (laneAt A i).toNat ∧
    (laneAt A i).toNat = ∑ m ∈ Finset.range 8, (byteAt A (8 * i + m)).toNat * 2 ^ (8 * m)

/-- R23: bit `z` of lane `i` is bit `z mod 8` of byte `8i + z div 8`. -/
def Obligations.LaneBitIsByteBit : Prop :=
  ∀ (A : Lanes) (i z : Nat), i < 25 → z < 64 →
    (laneAt A i).getLsbD z = (byteAt A (8 * i + z / 8)).getLsbD (z % 8)

/-- R24: a write through either view is seen at once through both, and nowhere else. -/
def Obligations.WritesAreSeenThroughBothViews : Prop :=
  (∀ (A : Lanes) (j : Nat) (b : Byte), j < 200 →
    byteAt (setByteAt A j b) j = b ∧
    (∀ m, m ≠ j → byteAt (setByteAt A j b) m = byteAt A m) ∧
    (laneAt (setByteAt A j b) (j / 8)).extractLsb' (8 * (j % 8)) 8 = b ∧
    (∀ i, i ≠ j / 8 → laneAt (setByteAt A j b) i = laneAt A i)) ∧
  ∀ (A : Lanes) (i : Nat) (v : Lane), i < 25 →
    laneAt (setLaneAt A i v) i = v ∧
    (∀ k, k < 8 → byteAt (setLaneAt A i v) (8 * i + k) = v.extractLsb' (8 * k) 8) ∧
    (∀ j, j / 8 ≠ i → byteAt (setLaneAt A i v) j = byteAt A j)

/-- The notation of R14: `MemWrite` then `MemRead` of the same bytes gives the number, the other bytes stay, and no other
access exists. -/
def Obligations.MemReadAfterMemWrite : Prop :=
  ∀ (A : Lanes) (j n v : Nat),
    ((n = 1 ∨ n = 8) → j + n ≤ 200 →
      ∃ A', memWrite A j n v = some A' ∧ memRead A' j n = some (v % 256 ^ n) ∧
        ∀ m, (m < j ∨ j + n ≤ m) → byteAt A' m = byteAt A m) ∧
    (¬ ((n = 1 ∨ n = 8) ∧ j + n ≤ 200) → memRead A j n = none ∧ memWrite A j n v = none)

/-- The formulas of R16, bit by bit and byte by byte. -/
def Obligations.RotationAndByteSwap : Prop :=
  (∀ (v : Lane) (n z : Nat), n < 64 → z < 64 → (rotl64 v n).getLsbD ((z + n) % 64) = v.getLsbD z) ∧
  (∀ (v : Lane) (n : Nat), 0 < n → n < 64 →
    (rotl64 v n).toNat = (v.toNat * 2 ^ n ||| v.toNat / 2 ^ (64 - n)) % 2 ^ 64) ∧
  (∀ v : Lane, rotl64 v 0 = v) ∧
  ∀ (v : Lane) (k : Nat), k < 8 → (bswap64 v).extractLsb' (8 * (7 - k)) 8 = v.extractLsb' (8 * k) 8

/-! ### The permutation (spec/40_keccak_permutation.md) -/

/-- R102, bit by bit: each bit gains the parity of the column before at its place and of the column after one place down. -/
def Obligations.ThetaBitByBit : Prop :=
  ∀ (A : Lanes) (i z : Nat), i < 25 → z < 64 →
    let a := fun x y b => (laneAt A (x + 5 * y)).getLsbD b
    let parity := fun x b => ((((a x 0 b).xor (a x 1 b)).xor (a x 2 b)).xor (a x 3 b)).xor (a x 4 b)
    (laneAt (theta A) i).getLsbD z =
      ((laneAt A i).getLsbD z).xor
        ((parity ((i % 5 + 4) % 5) z).xor (parity ((i % 5 + 1) % 5) ((z + 63) % 64)))

/-- The two forms of rho-pi give the same result: the chase of R103 moves lane `i`, rotated by `RHO[i]`, to `PI[i]` (R104).
The spec marks this equality as its own inference (`[derived: from rule R103 and this rule]`), and it rests on the tables of
log entry 10 (PRESUMED). -/
def Obligations.ChaseEqualsScratchCopy : Prop :=
  (∀ A : Lanes, rhoPi A = rhoPiScratch A) ∧
  (∀ (A : Lanes) (i : Fin 25),
    laneAt (rhoPi A) (i.val / 5 + 5 * ((2 * (i.val % 5) + 3 * (i.val / 5)) % 5)) = rotl64 (laneAt A i) RHO[i]) ∧
  Function.Bijective piDst ∧ ∀ i : Fin 25, piDst i = i ↔ i = 0

/-- The chase table of R103: 24 steps visit every lane but 0 once, end at lane 1, and rotate by the offset of their source. -/
def Obligations.ChaseTableVisitsEveryLane : Prop :=
  CHASE.length = 24 ∧ (CHASE.map Prod.fst).Nodup ∧ (0 : Fin 25) ∉ CHASE.map Prod.fst ∧
  (CHASE.map Prod.fst).getLast? = some 1 ∧
  (((1 : Fin 25) :: CHASE.map Prod.fst).zip CHASE).all fun p => RHO[p.1] == p.2.2 && piDst p.1 == p.2.1

/-- R106: each lane of a row is computed from the row as it was before the stage. -/
def Obligations.ChiUsesTheOldRow : Prop :=
  ∀ (A : Lanes) (x y : Nat), x < 5 → y < 5 →
    laneAt (chi A) (5 * y + x) =
      laneAt A (5 * y + x) ^^^
        (~~~(laneAt A (5 * y + (x + 1) % 5)) &&& laneAt A (5 * y + (x + 2) % 5))

/-- R107: iota changes lane 0 only, by the round's constant. -/
def Obligations.IotaChangesLaneZeroOnly : Prop :=
  ∀ (A : Lanes) (r : Fin 24),
    laneAt (iota A RC[r]) 0 = laneAt A 0 ^^^ RC[r] ∧ ∀ i, i ≠ 0 → laneAt (iota A RC[r]) i = laneAt A i

/-- R32: only bits 0, 1, 3, 7, 15, 31 and 63 of a round constant are ever set. -/
def Obligations.RoundConstantBits : Prop :=
  ∀ (r : Fin 24) (z : Nat), (RC[r]).getLsbD z = true → z ∈ [0, 1, 3, 7, 15, 31, 63]

/-- R100 and R101: `KeccakF` takes the stored words to canonical lanes, applies `Iota(Chi(RhoPi(Theta(A))), r)` for `r` from 0 to
23 in increasing order, and stores the result (R108); `keccakRounds` is the part between the two swaps. -/
def Obligations.RoundsRunInIncreasingOrder : Prop :=
  ∀ (storage : LaneStorage) (W : Lanes),
    let swap : Lane → Lane := match storage with | .le => id | .be => bswap64
    ∃ B : Nat → Lanes,
      (∀ i, i < 25 → laneAt (B 0) i = swap (laneAt W i)) ∧
      (∀ r : Fin 24, B (r.val + 1) = iota (chi (rhoPi (theta (B r.val)))) RC[r]) ∧
      keccakRounds (B 0) = B 24 ∧
      ∀ i, i < 25 → laneAt (keccakF storage W) i = swap (laneAt (B 24) i)

/-- R112: `KeccakF` is a bijection on the 1600-bit states, for both storage orders. -/
def Obligations.KeccakFIsBijective : Prop :=
  ∀ storage : LaneStorage, Function.Bijective (keccakF storage)

/-- R109: no step can tell the two storage orders apart. From two states that differ in `LANE_STORAGE` and in the stored
words only, with the same lanes, a step gives the same outcome, response included, and again such states. -/
def Obligations.LaneStorageIsNeverObserved : Prop :=
  ∀ s t : State, SameButStorage s t → SameOutcome SameButStorage (step s) (step t)

/-! ### The six commands (spec/41_sponge_commands.md) -/

/-- R141: the whole of `INIT`, from every state. -/
def Obligations.InitCreatesTheContext : Prop :=
  ∀ (outLen : Byte) (s : State),
    decode (0x01000000 ||| outLen.setWidth 32) = .ok (.init outLen) ∧
    (outLen.toNat ≤ 99 → ∃ t, exec (.init outLen) s = .next t ∧ t.rsp = some 0x0000 ∧
      (∀ j, t.byte j = 0x00) ∧ t.L = outLen ∧ t.rate.toNat = 200 - 2 * outLen.toNat ∧ t.position = 0 ∧
      t.phase = .absorbing ∧ SameSurroundings s t) ∧
    (99 < outLen.toNat → exec (.init outLen) s = .next { s with rsp := some 0x0200 })

/-- R142: the whole of `ABSORB`. A byte that does not fill the block changes `B[position]` alone; the byte that fills it
permutes in the same command. -/
def Obligations.AbsorbTakesOneByte : Prop :=
  ∀ (data : Byte) (s : State),
    decode (0x02000000 ||| data.setWidth 32) = .ok (.absorb data) ∧
    (s.phase ≠ .absorbing → exec (.absorb data) s = .next { s with rsp := some 0x0100 }) ∧
    (s.phase = .absorbing → s.Inv → ∃ t, exec (.absorb data) s = .next t ∧ t.rsp = some 0x0000 ∧
      t.phase = .absorbing ∧ t.L = s.L ∧ t.rate = s.rate ∧ SameSurroundings s t ∧
      (s.position.toNat + 1 < s.rate.toNat →
        t.position.toNat = s.position.toNat + 1 ∧ t.byte s.cursor = s.byte s.cursor ^^^ data ∧
        ∀ j, j ≠ s.cursor → t.byte j = s.byte j) ∧
      (s.position.toNat + 1 = s.rate.toNat →
        t.position = 0 ∧ ∃ A : Lanes, t.lanes = keccakRounds A ∧ byteAt A s.cursor = s.byte s.cursor ^^^ data ∧
          ∀ j, j ≠ s.cursor → byteAt A j = s.byte j))

/-- R143: the whole of `FINAL_SHA3`. Both XORs may hit one byte. -/
def Obligations.FinalSha3InjectsAndPermutes : Prop :=
  ∀ s : State,
    decode 0x03000000 = .ok .finalSha3 ∧
    (s.phase ≠ .absorbing → exec .finalSha3 s = .next { s with rsp := some 0x0100 }) ∧
    (s.phase = .absorbing → s.Inv → ∃ t, exec .finalSha3 s = .next t ∧ t.rsp = some 0x0000 ∧
      t.phase = .digest ∧ t.position = 0 ∧ t.L = s.L ∧ t.rate = s.rate ∧ SameSurroundings s t ∧
      ∃ A : Lanes, t.lanes = keccakRounds A ∧ ∀ j, byteAt A j =
        s.byte j ^^^ (if j = s.position.toNat then 0x06 else 0x00) ^^^
          (if j = s.rate.toNat - 1 then 0x80 else 0x00))

/-- R144: the whole of `FINAL_SHAKE`. -/
def Obligations.FinalShakeInjectsAndPermutes : Prop :=
  ∀ s : State,
    decode 0x04000000 = .ok .finalShake ∧
    (s.phase ≠ .absorbing → exec .finalShake s = .next { s with rsp := some 0x0100 }) ∧
    (s.phase = .absorbing → s.Inv → ∃ t, exec .finalShake s = .next t ∧ t.rsp = some 0x0000 ∧
      t.phase = .squeezing ∧ t.position = 0 ∧ t.L = s.L ∧ t.rate = s.rate ∧ SameSurroundings s t ∧
      ∃ A : Lanes, t.lanes = keccakRounds A ∧ ∀ j, byteAt A j =
        s.byte j ^^^ (if j = s.position.toNat then 0x1F else 0x00) ^^^
          (if j = s.rate.toNat - 1 then 0x80 else 0x00))

/-- R145: the whole of `SQUEEZE`. Inside a block nothing but `position` changes; at a used-up block the state is permuted
first and the answer is byte 0 of the new state. -/
def Obligations.SqueezeReadsOneByte : Prop :=
  ∀ s : State,
    decode 0x05000000 = .ok .squeeze ∧
    (s.phase ≠ .squeezing → exec .squeeze s = .next { s with rsp := some 0x0100 }) ∧
    (s.phase = .squeezing → s.Inv → ∃ t, exec .squeeze s = .next t ∧
      t.phase = .squeezing ∧ t.L = s.L ∧ t.rate = s.rate ∧ SameSurroundings s t ∧
      (s.position.toNat < s.rate.toNat →
        t.rsp = some ((s.byte s.cursor).setWidth 16) ∧ t.position.toNat = s.position.toNat + 1 ∧
        ∀ j, t.byte j = s.byte j) ∧
      (s.rate.toNat ≤ s.position.toNat →
        t.lanes = keccakRounds s.lanes ∧ t.rsp = some ((t.byte 0).setWidth 16) ∧ t.position = 1))

/-- R146: the whole of `DIGEST_READ`. Nothing but the response changes, in any case. -/
def Obligations.DigestReadAnswersOneByte : Prop :=
  ∀ (index : Byte) (s : State),
    decode (0x06000000 ||| index.setWidth 32) = .ok (.digestRead index) ∧
    (s.phase ≠ .digest → exec (.digestRead index) s = .next { s with rsp := some 0x0100 }) ∧
    (s.phase = .digest → s.L.toNat ≤ index.toNat →
      exec (.digestRead index) s = .next { s with rsp := some 0x0200 }) ∧
    (s.phase = .digest → index.toNat < s.L.toNat →
      exec (.digestRead index) s = .next { s with rsp := some ((s.byte index.toNat).setWidth 16) })

/-- R147: the phase table, its illegal column, and that within a context only `INIT` leaves `DIGEST` or `SQUEEZING`. -/
def Obligations.PhaseTable : Prop :=
  (∀ (i : Instr) (s : State), ∃ t, exec i s = .next t ∧
    t.rsp.map responseStatus = some (statusTable s.phase s.L i).code ∧
    (statusTable s.phase s.L i = .ok → t.phase = phaseAfterOk s.phase i) ∧
    (statusTable s.phase s.L i ≠ .ok → t = { s with rsp := t.rsp }) ∧
    (s.phase = .digest ∨ s.phase = .squeezing → t.phase ≠ s.phase → ∃ outLen, i = .init outLen)) ∧
  ∀ (w : CommandWord) (s : State), (∃ e, decode w = .error e) → runWord w s = .next { s with rsp := some 0x0300 }

/-- R184: the first of ILLEGAL, INVALID_STATE, MISUSE that applies is the one reported. -/
def Obligations.OneStatusByPriority : Prop :=
  ∀ s : State,
    (∀ w e, decode w = .error e → ∃ t, runWord w s = .next t ∧ t.rsp = some 0x0300) ∧
    (∀ index : Byte, s.phase ≠ .digest → s.L.toNat ≤ index.toNat →
      ∃ t, exec (.digestRead index) s = .next t ∧ t.rsp = some 0x0100) ∧
    (∀ outLen : Byte, 99 < outLen.toNat → ∃ t, exec (.init outLen) s = .next t ∧ t.rsp = some 0x0200) ∧
    (s.phase = .absorbing → ∃ t, runWord 0x060000C8 s = .next t ∧ t.rsp = some 0x0100) ∧
    ∃ t, runWord 0x06010000 s = .next t ∧ t.rsp = some 0x0300

/-- R140 and R57: a word answered with another status than `OK` leaves every piece of state as it was. -/
def Obligations.RefusedWordChangesNothing : Prop :=
  ∀ (w : CommandWord) (s t : State), runWord w s = .next t → t.rsp.map responseStatus ≠ some 0 →
    t = { s with rsp := t.rsp }

/-- R25 and R26: `INIT` alone writes `rate` and `L`, and the rate it writes is even and in 2..200. -/
def Obligations.OnlyInitWritesRateAndLength : Prop :=
  ∀ (i : Instr) (s t : State), exec i s = .next t →
    (t.rate = s.rate ∧ t.L = s.L) ∨
    ∃ outLen, i = .init outLen ∧ t.L = outLen ∧ t.L.toNat ≤ 99 ∧ t.rate.toNat = 200 - 2 * t.L.toNat ∧
      t.rate.toNat % 2 = 0 ∧ 2 ≤ t.rate.toNat ∧ t.rate.toNat ≤ 200

/-- R30: but for `INIT`, the capacity bytes change through the permutation only. -/
def Obligations.CapacityChangesByPermutationOnly : Prop :=
  ∀ (i : Instr) (s t : State), s.Inv → (∀ outLen, i ≠ .init outLen) → exec i s = .next t →
    (∀ j, s.rate.toNat ≤ j → t.byte j = s.byte j) ∨
    ∃ A : Lanes, t.lanes = keccakRounds A ∧ ∀ j, s.rate.toNat ≤ j → byteAt A j = s.byte j

/-! ### Invariants and reset (spec/10_state.md, spec/70_reset_and_hazards.md) -/

/-- The invariant of R29 holds at reset. -/
def Obligations.InvariantHoldsAtReset : Prop := State.reset.Inv

/-- R29: every step keeps the invariant of the context registers, from every state that has it. -/
def Obligations.EveryStepKeepsTheInvariant : Prop :=
  ∀ s t : State, s.Inv → step s = .next t → t.Inv

/-- What R38 gives the reset state, and R202: until `INIT`, every other command is refused and changes nothing. -/
def Obligations.ResetStateWaitsForInit : Prop :=
  State.reset.phase = .idle ∧ State.reset.rsp = none ∧
  (∀ (i : Instr) (s : State), s.phase = .idle → (∀ outLen, i ≠ .init outLen) →
    exec i s = .next { s with rsp := some 0x0100 }) ∧
  ∀ outLen : Byte, outLen.toNat ≤ 99 →
    ∃ t, exec (.init outLen) State.reset = .next t ∧ t.phase = .absorbing ∧ t.rsp = some 0x0000

/-- R200: an edge with `rst` high wins over every transfer. The registers it leaves unspecified hold free values, of which
this says nothing. That the responses taken so far are kept is the model's choice and no rule's: R210 does not say what a
reset during a run does to the observation (log entry 16, DESIGN CHOICE). -/
def Obligations.ResetEdgeEndsTheContext : Prop :=
  ∀ s : State, s.edge.driver = .owner → s.edge.rst = true →
    s.cmdReady = false ∧ s.rspValid = false ∧
    ∃ t, step s = .next t ∧ t.phase = .idle ∧ t.rsp = none ∧ t.taken = s.taken ∧ t.host = s.host.tail ∧
      t.laneStorage = s.laneStorage

/-- R38: what reset leaves unspecified is never observed. -/
def Obligations.UnspecifiedValuesAreNeverObserved : Prop :=
  ∀ s t : State, SameButUnspecified s t → SameOutcome SameButUnspecified (step s) (step t)

/-! ### Steps and the ports (spec/20_memory.md, spec/60_exceptions.md, spec/70_reset_and_hazards.md) -/

/-- A step runs the decoded command: where a command is transferred (R203), the step is `exec` of what its word decodes to
(R140), on the state with the edge passed. The second clause is the model's choice and no rule's: `State.withFetchWord` puts
the word first and takes a pending response (log entry 8, DESIGN CHOICE). -/
def Obligations.StepRunsTheDecodedCommand : Prop :=
  (∀ (s : State) (i : Instr), s.edge.driver = .owner → s.edge.rst = false → s.edge.cmdValid = true → s.rsp = none →
    decode s.edge.cmdData = .ok i → step s = exec i s.passEdge) ∧
  ∀ (s : State) (w : CommandWord) (i : Instr), decode w = .ok i →
    step (s.withFetchWord 32 w.toNat) = exec i s.takeResponse

/-- An illegal word at a transfer is answered `ILLEGAL`, and nothing but the port changes (R140, R183). -/
def Obligations.StepAnswersAnIllegalWord : Prop :=
  ∀ (s : State) (e : Illegal), s.edge.driver = .owner → s.edge.rst = false → s.edge.cmdValid = true → s.rsp = none →
    decode s.edge.cmdData = .error e → step s = .next { s.passEdge with rsp := some 0x0300 }

/-- R204: the pending response is transferred where the host is ready, in order, and nothing else changes. -/
def Obligations.ResponseIsTransferredOnce : Prop :=
  ∀ (s : State) (r : ResponseWord), s.edge.driver = .owner → s.edge.rst = false → s.edge.rspReady = true →
    s.rsp = some r → s.rspValid = true ∧ s.rspData = some r ∧
    step s = .next { s with rsp := none, taken := s.taken ++ [r], host := s.host.tail }

/-- R206: while the host keeps `rsp_ready` low the block holds the response and accepts no command; the hold is lifted only
by the transfer or by reset. -/
def Obligations.UntakenResponseHoldsTheBlock : Prop :=
  (∀ (s : State) (r : ResponseWord), s.edge.driver = .owner → s.edge.rst = false → s.edge.rspReady = false →
    s.rsp = some r → s.cmdReady = false ∧ step s = .next { s with host := s.host.tail }) ∧
  ∀ (s t : State) (r : ResponseWord), s.rsp = some r → step s = .next t → t.rsp ≠ some r →
    s.edge.rst = true ∨ s.edge.rspReady = true

/-- R194: an idle host leaves the block's state as it is, and so does a host with nothing more to do. -/
def Obligations.IdleHostLeavesTheState : Prop :=
  ∀ s : State, s.edge.driver = .owner → s.edge.rst = false → s.edge.cmdValid = false → s.edge.rspReady = false →
    step s = .next { s with host := s.host.tail }

/-- R62 and R195: a step answers a next state unless a second host drives the ports, which is refused; and every word is
answered with exactly one pending response. -/
def Obligations.BlockAlwaysAnswers : Prop :=
  (∀ s : State, s.edge.driver = .owner → ∃ t, step s = .next t) ∧
  (∀ s : State, s.edge.driver = .secondHost → step s = .refused .secondHost) ∧
  ∀ (w : CommandWord) (s : State), ∃ t r, runWord w s = .next t ∧ t.rsp = some r

/-- R60 and R204: a sequence of words is answered with one response each, in command order: the response at a word's place is
the one that word is answered with at the state after the words before it. The observations before the sequence stay. -/
def Obligations.OneResponsePerCommandInOrder : Prop :=
  ∀ (ws : List CommandWord) (s : State), s.rsp = none →
    ∃ t rs, transactAll ws s = .next t ∧ t.rsp = none ∧ t.taken = s.taken ++ rs ∧ rs.length = ws.length ∧
      ∀ us w vs, ws = us ++ w :: vs →
        ∃ u v, transactAll us s = .next u ∧ runWord w u = .next v ∧ rs[us.length]? = v.rsp

/-- The machine on a host that offers each word and takes each response runs exactly the transactions of the words
(R203, R204, R210). That a transaction is two edges is the model's choice, not the spec's: a command is accepted, run and
answered in one step and no busy edge is listed (log entry 1, DESIGN CHOICE), where R205 leaves the latency open. -/
def Obligations.EdgesCarryOutTheTransactions : Prop :=
  ∀ (ws : List CommandWord) (s : State) (rest : List HostEdge), s.rsp = none → s.host = hostProgram ws ++ rest →
    Sys2Proof.core.run (2 * ws.length) s = transactAll ws { s with host := rest }

/-- The transactions of encoded commands are the commands one after another (R60, R78, R140). -/
def Obligations.TransactionsRunTheCommands : Prop :=
  ∀ (is : List Instr) (s : State), transactAll (is.map encode) s = runCommands is s

/-! ### Laws of command sequences (spec/41_sponge_commands.md R148, R149) -/

/-- R148 (c): after `INIT` and `n` `ABSORB`s, `position = n mod rate`, and the lanes are those of `n div rate` blocks
absorbed and permuted and of the rest XORed in. -/
def Obligations.AbsorbedBytesAreCounted : Prop :=
  ∀ (outLen : Byte) (message : List Byte) (s : State), outLen.toNat ≤ 99 →
    ∃ t, runCommands (.init outLen :: message.map .absorb) s = .next t ∧ t.phase = .absorbing ∧
      t.rate.toNat = 200 - 2 * outLen.toNat ∧
      t.position.toNat = message.length % t.rate.toNat ∧
      t.lanes = xorBlock (absorbBlocks t.rate.toNat (message.length / t.rate.toNat) zeroLanes message)
        (message.drop (t.rate.toNat * (message.length / t.rate.toNat)))

/-- R148 (d): after the finalize and `m >= 1` `SQUEEZE`s, `position = ((m-1) mod rate) + 1` and `(m-1) div rate`
permutations have run. -/
def Obligations.SqueezedBytesAreCounted : Prop :=
  ∀ (m : Nat) (s : State), s.phase = .squeezing → s.Inv → s.position = 0 → 1 ≤ m →
    ∃ t, runCommands (List.replicate m .squeeze) s = .next t ∧ t.phase = .squeezing ∧
      t.position.toNat = (m - 1) % s.rate.toNat + 1 ∧ t.lanes = keccakRounds^[(m - 1) / s.rate.toNat] s.lanes

/-- R149, the fixed digest: after `INIT L`, the message and `FINAL_SHA3`, `DIGEST_READ k` answers byte `k` of the sponge
function in block form, for every legal `L`, every message and every `k < L`, capacity bytes included (conflict C4). -/
def Obligations.DigestIsTheSpongeFunction : Prop :=
  ∀ (outLen : Byte) (message : List Byte) (s : State), outLen.toNat ≤ 99 →
    ∃ t, runCommands (.init outLen :: (message.map .absorb ++ [.finalSha3])) s = .next t ∧ t.phase = .digest ∧
      ∀ index : Byte, index.toNat < outLen.toNat →
        exec (.digestRead index) t =
          .next (t.offer ((byteAt (spongeState (200 - 2 * outLen.toNat) 0x06 message) index.toNat).setWidth 16))

/-- R149, the XOF: after `INIT L`, the message and `FINAL_SHAKE`, `n` `SQUEEZE`s answer the first `n` bytes of the sponge
function in block form, for every legal `L`, every message and every `n`. -/
def Obligations.XofStreamIsTheSpongeFunction : Prop :=
  ∀ (outLen : Byte) (message : List Byte) (n : Nat) (s : State), outLen.toNat ≤ 99 →
    ∃ u t, runCommands (.init outLen :: (message.map .absorb ++ [.finalShake])) s = .next u ∧
      runCommands (List.replicate n .squeeze) u = .next t ∧
      t.taken = u.taken ++ (List.range n).map fun k =>
        (spongeByte (200 - 2 * outLen.toNat) 0x1F message k).setWidth 16

/-- R161, R163 and R168: the calls `write` and `read` are all accepted or all refused, and a refused call changes nothing
but the responses the host has taken. -/
def Obligations.FacadeCallsAreAllOrNothing : Prop :=
  ∀ (s : State) (h : List Byte) (n : Nat), s.Inv → s.rsp = none →
    (s.phase = .absorbing → ∃ t, runCommands (h.map .absorb) s = .next t ∧ t.phase = .absorbing ∧
      t.taken = s.taken ++ List.replicate h.length 0x0000) ∧
    (s.phase ≠ .absorbing → runCommands (h.map .absorb) s =
      .next { s with taken := s.taken ++ List.replicate h.length 0x0100 }) ∧
    (s.phase = .squeezing → ∃ (t : State) (ds : List Byte),
      runCommands (List.replicate n .squeeze) s = .next t ∧ t.phase = .squeezing ∧
      ds.length = n ∧ t.taken = s.taken ++ ds.map fun d => d.setWidth 16) ∧
    (s.phase ≠ .squeezing → runCommands (List.replicate n .squeeze) s =
      .next { s with taken := s.taken ++ List.replicate n 0x0100 })

/-- R148 (e): a refused word changes neither the state nor any later response: the words after it run to the same state and
the same responses with it and without it. -/
def Obligations.RefusedWordLeavesNoTrace : Prop :=
  ∀ (w : CommandWord) (ws : List CommandWord) (s t : State), s.rsp = none → transact w s = .next t →
    (∃ r, t.taken = s.taken ++ [r] ∧ responseStatus r ≠ 0) →
    ∃ u v r rs, transactAll ws t = .next u ∧ transactAll ws s = .next v ∧ u = { v with taken := u.taken } ∧
      u.taken = s.taken ++ r :: rs ∧ v.taken = s.taken ++ rs

/-! ### The assembler (spec/30_encoding.md R80, R81, spec/42_streaming_facade.md) -/

/-- R80: a command assembles to `(op << 24) | imm8`; an operand above 255 is refused. -/
def Obligations.CommandLinesAssemble : Prop :=
  (∀ n : Nat, n ≤ 255 →
    assembleWords [.init n] = .ok [BitVec.ofNat 32 (0x01 * 2 ^ 24 + n)] ∧
    assembleWords [.absorb n] = .ok [BitVec.ofNat 32 (0x02 * 2 ^ 24 + n)] ∧
    assembleWords [.digestRead n] = .ok [BitVec.ofNat 32 (0x06 * 2 ^ 24 + n)]) ∧
  (assembleWords [.finalSha3] = .ok [0x03000000] ∧ assembleWords [.finalShake] = .ok [0x04000000] ∧
    assembleWords [.squeeze] = .ok [0x05000000]) ∧
  ∀ n : Nat, 255 < n →
    assembleWords [.init n] = .error .operandTooLarge ∧ assembleWords [.absorb n] = .error .operandTooLarge ∧
    assembleWords [.digestRead n] = .error .operandTooLarge

/-- R81: the pseudo-instructions that are sequences of one command, and the `STREAM.*` lines. -/
def Obligations.PseudoInstructionsExpand : Prop :=
  (∀ (h : List Byte) (n : Nat),
    assemble [.absorbBytes h] = .ok (h.map .absorb) ∧ assemble [.squeezeN n] = .ok (List.replicate n .squeeze) ∧
    assemble [.streamWrite h] = .ok (h.map .absorb) ∧ assemble [.streamFinish] = .ok [.finalShake] ∧
    assemble [.streamRead n] = .ok (List.replicate n .squeeze)) ∧
  (assemble [.streamOpen 128] = .ok [.init 16] ∧ assemble [.streamOpen 256] = .ok [.init 32]) ∧
  (∀ bits : Nat, bits ∉ [128, 256] → assemble [.streamOpen bits] = .error .shakeBits) ∧
  ∀ codes : List Nat,
    ((∀ c ∈ codes, c < 128) → assemble [.absorbStr codes] = .ok (codes.map fun c => .absorb (BitVec.ofNat 8 c))) ∧
    ((∃ c ∈ codes, 128 ≤ c) → assemble [.absorbStr codes] = .error .notAscii)

/-- R81: `DIGEST.ALL` reads the `L` bytes of the program's most recent `INIT`, and is refused where there is none. The lines
after that `INIT` hold no other, not even within a pseudo-instruction, so the reading of log entry 13 plays no part. -/
def Obligations.DigestAllReadsTheLastInit : Prop :=
  (∀ (before since : List AsmLine) (outLen : Nat) (is : List Instr), (∀ line ∈ since, line.initOperand = none) →
    assemble (before ++ .init outLen :: since) = .ok is →
    assemble (before ++ .init outLen :: since ++ [.digestAll]) =
      .ok (is ++ (List.range outLen).map fun k => .digestRead (BitVec.ofNat 8 k))) ∧
  ∀ (program : List AsmLine) (is : List Instr), (∀ line ∈ program, line.initOperand = none) →
    assemble program = .ok is → assemble (program ++ [.digestAll]) = .error .noInit

/-- R81, R165 and R166: `HASH` and `SHAKE` are the sequences of single commands, with their limits. -/
def Obligations.OneShotCallsExpand : Prop :=
  (∀ (outLen : Nat) (h : List Byte), outLen ∈ [28, 32, 48, 64] →
    assemble [.hash outLen h] = assemble [.init outLen, .absorbBytes h, .finalSha3, .digestAll] ∧
    assemble [.hash outLen h] = .ok (.init (BitVec.ofNat 8 outLen) :: (h.map .absorb ++ .finalSha3 ::
      (List.range outLen).map fun k => .digestRead (BitVec.ofNat 8 k)))) ∧
  (∀ (outLen : Nat) (h : List Byte), outLen ∉ [28, 32, 48, 64] →
    assemble [.hash outLen h] = .error .hashLength) ∧
  (∀ (bits : Nat) (h : List Byte) (n : Nat), bits ∈ [128, 256] →
    assemble [.shake bits h n] = assemble [.init (bits / 8), .absorbBytes h, .finalShake, .squeezeN n] ∧
    assemble [.shake bits h n] = .ok (.init (BitVec.ofNat 8 (bits / 8)) ::
      (h.map .absorb ++ .finalShake :: List.replicate n .squeeze))) ∧
  ∀ (bits : Nat) (h : List Byte) (n : Nat), bits ∉ [128, 256] → assemble [.shake bits h n] = .error .shakeBits

/-- R160 and R162: the facade's flags after open and after finish, and a second finish refused. -/
def Obligations.FacadeFlagsFollowThePhase : Prop :=
  ∀ s : State, s.rsp = none →
    (∀ outLen : Byte, outLen = 16 ∨ outLen = 32 → ∃ t, runCommands [.init outLen] s = .next t ∧
      t.phase.writable = true ∧ t.phase.readable = false ∧ t.rate.toNat = 200 - 2 * outLen.toNat ∧
      ∃ u, runCommands [.finalShake] t = .next u ∧ u.phase.writable = false ∧ u.phase.readable = true ∧
        runCommands [.finalShake] u = .next { u with taken := u.taken ++ [0x0100] })
end

