-- ==== Sys2Proof/Laws/Assembler.lean ====
section
/-! SUPPORT. The assembler said once: a line before a program, a program before another, and the one `INIT` that
`DIGEST.ALL` sees. -/

namespace Sys2Proof.Machine

/-- A check that holds gives the commands. -/
@[simp] theorem checked_ok {check : Bool} (h : check = true) (e : AsmError) (is : List Instr) :
    checked check e is = .ok is := by simp [checked, h]

/-- A check that fails gives its refusal. -/
@[simp] theorem checked_error {check : Bool} (h : check = false) (e : AsmError) (is : List Instr) :
    checked check e is = .error e := by simp [checked, h]

/-- The most recent `INIT` after the lines of a program. -/
def lastInitAfter (lastInit : Option Nat) (program : List AsmLine) : Option Nat :=
  program.foldl (fun found line => line.initOperand.or found) lastInit

/-- A program with no `INIT` changes no most recent `INIT`. -/
theorem lastInitAfter_of_none {program : List AsmLine} (h : ∀ line ∈ program, line.initOperand = none)
    (lastInit : Option Nat) : lastInitAfter lastInit program = lastInit := by
  induction program with
  | nil => rfl
  | cons line rest ih =>
    simp only [List.forall_mem_cons] at h
    simpa [lastInitAfter, h.1] using ih h.2

/-- The last `INIT` line of a program is the most recent one, where no `INIT` follows it. -/
theorem lastInitAfter_init (lastInit : Option Nat) (before since : List AsmLine) (outLen : Nat)
    (h : ∀ line ∈ since, line.initOperand = none) :
    lastInitAfter lastInit (before ++ .init outLen :: since) = some outLen := by
  rw [lastInitAfter, List.foldl_append, List.foldl_cons]
  exact lastInitAfter_of_none h _

/-- A program of one line is the line's expansion. -/
theorem assembleFrom_singleton (lastInit : Option Nat) (line : AsmLine) :
    assembleFrom lastInit [line] = line.expand lastInit := by
  simp only [assembleFrom]
  cases line.expand lastInit <;> simp

/-- A program before another: the commands of the first, then those of the second, which starts from the most recent `INIT`
the first leaves. -/
theorem assembleFrom_append {program : List AsmLine} {lastInit : Option Nat} {is : List Instr}
    (h : assembleFrom lastInit program = .ok is) (more : List AsmLine) :
    assembleFrom lastInit (program ++ more) =
      (assembleFrom (lastInitAfter lastInit program) more).map (is ++ ·) := by
  induction program generalizing lastInit is with
  | nil =>
    cases h
    simp only [List.nil_append, lastInitAfter, List.foldl_nil]
    cases assembleFrom lastInit more <;> rfl
  | cons line rest ih =>
    simp only [assembleFrom] at h
    split at h
    · next i j hl hr =>
      cases h
      simp only [List.cons_append, assembleFrom, hl, ih hr, lastInitAfter, List.foldl_cons]
      cases assembleFrom (List.foldl _ _ rest) more <;> simp [Except.map]
    · cases h
    · cases h

end Sys2Proof.Machine
end

