-- ==== Sys2Proof/Laws/Views.lean ====
section
/-! SUPPORT. The laws of the two views: what a byte write does to each byte and lane, lanes are determined by their bytes,
and the lane-swap is an involution. -/

namespace Sys2Proof.Machine

theorem getLsbD_laneByte (v : Lane) (k b : Nat) :
    (laneByte v k).getLsbD b = (decide (b < 8) && v.getLsbD (8 * k + b)) := by
  simp [laneByte, BitVec.getLsbD_extractLsb']

theorem getLsbD_placeByte (b : Byte) (k z : Nat) (hz : z < 64) :
    (placeByte b k).getLsbD z = (decide (8 * k ≤ z) && b.getLsbD (z - 8 * k)) := by
  by_cases h1 : z < 8 * k
  · have h2 : ¬ 8 * k ≤ z := by omega
    simp [placeByte, hz, h1, h2]
  · have h2 : 8 * k ≤ z := by omega
    simp [placeByte, hz, h1, h2]

theorem getLsbD_placeByte_ff (k z : Nat) (hz : z < 64) :
    (placeByte 0xFF k).getLsbD z = (decide (8 * k ≤ z) && decide (z < 8 * k + 8)) := by
  have hff : (0xFF : Byte) = BitVec.allOnes 8 := by decide
  rw [getLsbD_placeByte _ _ _ hz, hff, BitVec.getLsbD_allOnes]
  by_cases h : 8 * k ≤ z
  · have : z - 8 * k < 8 ↔ z < 8 * k + 8 := by omega
    simp [h, this]
  · simp [h]

theorem getLsbD_setLaneByte (v : Lane) (k z : Nat) (b : Byte) (hz : z < 64) :
    (setLaneByte v k b).getLsbD z =
      if 8 * k ≤ z ∧ z < 8 * k + 8 then b.getLsbD (z - 8 * k) else v.getLsbD z := by
  rw [setLaneByte, BitVec.getLsbD_or, BitVec.getLsbD_and, BitVec.getLsbD_not,
    getLsbD_placeByte_ff _ _ hz, getLsbD_placeByte _ _ _ hz]
  by_cases h1 : 8 * k ≤ z
  · by_cases h2 : z < 8 * k + 8
    · simp [h1, h2, hz]
    · have h5 : b.getLsbD (z - 8 * k) = false := BitVec.getLsbD_of_ge _ _ (by omega)
      simp [h1, h2, hz, h5]
  · simp [h1, hz]

@[simp] theorem laneByte_setLaneByte_same (v : Lane) (k : Nat) (b : Byte) (hk : k < 8) :
    laneByte (setLaneByte v k b) k = b := by
  apply BitVec.eq_of_getLsbD_eq
  intro i hi
  rw [getLsbD_laneByte, getLsbD_setLaneByte _ _ _ _ (by omega)]
  have h : 8 * k ≤ 8 * k + i ∧ 8 * k + i < 8 * k + 8 := by omega
  simp [h, hi]

theorem laneByte_setLaneByte_other (v : Lane) (k m : Nat) (b : Byte) (hm : m < 8) (h : m ≠ k) :
    laneByte (setLaneByte v k b) m = laneByte v m := by
  apply BitVec.eq_of_getLsbD_eq
  intro i hi
  rw [getLsbD_laneByte, getLsbD_laneByte, getLsbD_setLaneByte _ _ _ _ (by omega)]
  have h : ¬ (8 * k ≤ 8 * m + i ∧ 8 * m + i < 8 * k + 8) := by omega
  simp [h]

/-- A lane is determined by its eight bytes. -/
theorem lane_ext_bytes {v w : Lane} (h : ∀ k < 8, laneByte v k = laneByte w k) : v = w := by
  apply BitVec.eq_of_getLsbD_eq
  intro z hz
  have hb := congrArg (fun x => x.getLsbD (z % 8)) (h (z / 8) (by omega))
  have e : 8 * (z / 8) + z % 8 = z := Nat.div_add_mod z 8
  simp only [getLsbD_laneByte, e] at hb
  simpa [Nat.mod_lt] using hb

theorem getLsbD_placeByte_at (b : Byte) (k m i : Nat) (hi : i < 8) (hm : m < 8) :
    (placeByte b k).getLsbD (8 * m + i) = (decide (k = m) && b.getLsbD i) := by
  rw [getLsbD_placeByte _ _ _ (by omega)]
  obtain h | h | h : k < m ∨ k = m ∨ m < k := by omega
  · have h5 : b.getLsbD (8 * m + i - 8 * k) = false := BitVec.getLsbD_of_ge _ _ (by omega)
    have h6 : k ≠ m := by omega
    simp [h5, h6]
  · subst h
    simp
  · have h5 : ¬ 8 * k ≤ 8 * m + i := by omega
    have h6 : k ≠ m := by omega
    simp [h5, h6]

@[simp] theorem laneByte_laneOfBytes (f : Nat → Byte) (k : Nat) (hk : k < 8) :
    laneByte (laneOfBytes f) k = f k := by
  apply BitVec.eq_of_getLsbD_eq
  intro i hi
  rw [getLsbD_laneByte]
  simp only [laneOfBytes, BitVec.getLsbD_or, getLsbD_placeByte_at _ _ _ _ hi hk, hi, decide_true, Bool.true_and]
  have h : k = 0 ∨ k = 1 ∨ k = 2 ∨ k = 3 ∨ k = 4 ∨ k = 5 ∨ k = 6 ∨ k = 7 := by omega
  obtain rfl | rfl | rfl | rfl | rfl | rfl | rfl | rfl := h <;> simp

@[simp] theorem laneByte_bswap64 (v : Lane) (k : Nat) (hk : k < 8) :
    laneByte (bswap64 v) k = laneByte v (7 - k) := by
  simp [bswap64, hk]

@[simp] theorem bswap64_bswap64 (v : Lane) : bswap64 (bswap64 v) = v := by
  apply lane_ext_bytes
  intro k hk
  rw [laneByte_bswap64 _ _ hk, laneByte_bswap64 _ _ (by omega)]
  congr 1
  omega

@[simp] theorem laneSwap_laneSwap (storage : LaneStorage) (A : Lanes) :
    laneSwap storage (laneSwap storage A) = A := by
  cases storage with
  | le => rfl
  | be =>
    apply Vector.ext
    intro i hi
    simp [laneSwap]

theorem laneAt_setLaneAt_same (A : Lanes) (i : Nat) (v : Lane) (hi : i < 25) :
    laneAt (setLaneAt A i v) i = v := by
  simp [laneAt, setLaneAt, hi]

theorem laneAt_setLaneAt_other (A : Lanes) (i m : Nat) (v : Lane) (h : m ≠ i) :
    laneAt (setLaneAt A i v) m = laneAt A m := by
  unfold laneAt setLaneAt
  split <;> rename_i hm
  · split <;> rename_i hi
    · simp [Ne.symm h]
    · rfl
  · rfl

/-- Lanes are determined by the lane view. -/
theorem lanes_ext {A A' : Lanes} (h : ∀ i < 25, laneAt A i = laneAt A' i) : A = A' := by
  apply Vector.ext
  intro i hi
  simpa [laneAt, hi] using h i hi

/-- Lanes are determined by their 200 bytes. -/
theorem lanes_ext_bytes {A A' : Lanes} (h : ∀ j < 200, byteAt A j = byteAt A' j) : A = A' := by
  apply lanes_ext
  intro i hi
  apply lane_ext_bytes
  intro k hk
  have hj := h (8 * i + k) (by omega)
  have e1 : (8 * i + k) / 8 = i := by omega
  have e2 : (8 * i + k) % 8 = k := by omega
  simpa [byteAt, e1, e2] using hj

theorem byteAt_setByteAt_same (A : Lanes) (j : Nat) (b : Byte) (hj : j < 200) :
    byteAt (setByteAt A j b) j = b := by
  have h1 : j / 8 < 25 := by omega
  have h2 : j % 8 < 8 := by omega
  simp [byteAt, setByteAt, laneAt_setLaneAt_same _ _ _ h1, h2]

theorem byteAt_setByteAt_other (A : Lanes) (j m : Nat) (b : Byte) (h : m ≠ j) :
    byteAt (setByteAt A j b) m = byteAt A m := by
  unfold byteAt setByteAt
  by_cases hl : m / 8 = j / 8
  · by_cases hj : j / 8 < 25
    · rw [hl, laneAt_setLaneAt_same _ _ _ hj]
      exact laneByte_setLaneByte_other _ _ _ _ (by omega) (by omega)
    · simp [setLaneAt, hj]
  · rw [laneAt_setLaneAt_other _ _ _ _ hl]

theorem byteAt_xorByteAt_same (A : Lanes) (j : Nat) (b : Byte) (hj : j < 200) :
    byteAt (xorByteAt A j b) j = byteAt A j ^^^ b := byteAt_setByteAt_same _ _ _ hj

theorem byteAt_xorByteAt_other (A : Lanes) (j m : Nat) (b : Byte) (h : m ≠ j) :
    byteAt (xorByteAt A j b) m = byteAt A m := byteAt_setByteAt_other _ _ _ _ h

/-- XORing a byte, on every byte of the state. -/
theorem byteAt_xorByteAt (A : Lanes) (j m : Nat) (b : Byte) (hj : j < 200) :
    byteAt (xorByteAt A j b) m = byteAt A m ^^^ (if m = j then b else 0x00) := by
  by_cases h : m = j
  · subst h
    simp [byteAt_xorByteAt_same _ _ _ hj]
  · simp [byteAt_xorByteAt_other _ _ _ _ h, h]

/-- Outside 0..199 a byte reads 0. -/
theorem byteAt_of_ge (A : Lanes) (j : Nat) (hj : 200 ≤ j) : byteAt A j = 0 := by
  have h : ¬ j / 8 < 25 := by omega
  simp [byteAt, laneAt, h, laneByte]

@[simp] theorem laneAt_zeroLanes (i : Nat) : laneAt zeroLanes i = 0 := by
  simp [laneAt, zeroLanes]

@[simp] theorem byteAt_zeroLanes (j : Nat) : byteAt zeroLanes j = 0 := by
  simp [byteAt, laneByte]

end Sys2Proof.Machine
end

