-- ==== Sys2Proof/Laws/State.lean ====
section
/-! SUPPORT. One lemma per field per update of the state, so that no proof unfolds a record update. -/

namespace Sys2Proof.Machine

section
variable (s : State) (p : Byte)

@[simp] theorem State.setPosition_phase : (s.setPosition p).phase = s.phase := rfl
@[simp] theorem State.setPosition_L : (s.setPosition p).L = s.L := rfl
@[simp] theorem State.setPosition_rate : (s.setPosition p).rate = s.rate := rfl
@[simp] theorem State.setPosition_position : (s.setPosition p).position = p := rfl
@[simp] theorem State.setPosition_words : (s.setPosition p).words = s.words := rfl
@[simp] theorem State.setPosition_laneStorage : (s.setPosition p).laneStorage = s.laneStorage := rfl
@[simp] theorem State.setPosition_rsp : (s.setPosition p).rsp = s.rsp := rfl
@[simp] theorem State.setPosition_host : (s.setPosition p).host = s.host := rfl
@[simp] theorem State.setPosition_taken : (s.setPosition p).taken = s.taken := rfl
@[simp] theorem State.setPosition_freeCount : (s.setPosition p).freeCount = s.freeCount := rfl

end

section
variable (s : State) (p : Phase)

@[simp] theorem State.setPhase_phase : (s.setPhase p).phase = p := rfl
@[simp] theorem State.setPhase_L : (s.setPhase p).L = s.L := rfl
@[simp] theorem State.setPhase_rate : (s.setPhase p).rate = s.rate := rfl
@[simp] theorem State.setPhase_position : (s.setPhase p).position = s.position := rfl
@[simp] theorem State.setPhase_words : (s.setPhase p).words = s.words := rfl
@[simp] theorem State.setPhase_laneStorage : (s.setPhase p).laneStorage = s.laneStorage := rfl
@[simp] theorem State.setPhase_rsp : (s.setPhase p).rsp = s.rsp := rfl
@[simp] theorem State.setPhase_host : (s.setPhase p).host = s.host := rfl
@[simp] theorem State.setPhase_taken : (s.setPhase p).taken = s.taken := rfl
@[simp] theorem State.setPhase_freeCount : (s.setPhase p).freeCount = s.freeCount := rfl

end

section
variable (s : State) (A : Lanes)

@[simp] theorem State.setLanes_phase : (s.setLanes A).phase = s.phase := rfl
@[simp] theorem State.setLanes_L : (s.setLanes A).L = s.L := rfl
@[simp] theorem State.setLanes_rate : (s.setLanes A).rate = s.rate := rfl
@[simp] theorem State.setLanes_position : (s.setLanes A).position = s.position := rfl
@[simp] theorem State.setLanes_words : (s.setLanes A).words = laneSwap s.laneStorage A := rfl
@[simp] theorem State.setLanes_laneStorage : (s.setLanes A).laneStorage = s.laneStorage := rfl
@[simp] theorem State.setLanes_rsp : (s.setLanes A).rsp = s.rsp := rfl
@[simp] theorem State.setLanes_host : (s.setLanes A).host = s.host := rfl
@[simp] theorem State.setLanes_taken : (s.setLanes A).taken = s.taken := rfl
@[simp] theorem State.setLanes_freeCount : (s.setLanes A).freeCount = s.freeCount := rfl

end

section
variable (s : State)

@[simp] theorem State.permute_phase : (s.permute).phase = s.phase := rfl
@[simp] theorem State.permute_L : (s.permute).L = s.L := rfl
@[simp] theorem State.permute_rate : (s.permute).rate = s.rate := rfl
@[simp] theorem State.permute_position : (s.permute).position = s.position := rfl
@[simp] theorem State.permute_words : (s.permute).words = keccakF s.laneStorage s.words := rfl
@[simp] theorem State.permute_laneStorage : (s.permute).laneStorage = s.laneStorage := rfl
@[simp] theorem State.permute_rsp : (s.permute).rsp = s.rsp := rfl
@[simp] theorem State.permute_host : (s.permute).host = s.host := rfl
@[simp] theorem State.permute_taken : (s.permute).taken = s.taken := rfl
@[simp] theorem State.permute_freeCount : (s.permute).freeCount = s.freeCount := rfl

end

section
variable (s : State) (r : ResponseWord)

@[simp] theorem State.offer_phase : (s.offer r).phase = s.phase := rfl
@[simp] theorem State.offer_L : (s.offer r).L = s.L := rfl
@[simp] theorem State.offer_rate : (s.offer r).rate = s.rate := rfl
@[simp] theorem State.offer_position : (s.offer r).position = s.position := rfl
@[simp] theorem State.offer_words : (s.offer r).words = s.words := rfl
@[simp] theorem State.offer_laneStorage : (s.offer r).laneStorage = s.laneStorage := rfl
@[simp] theorem State.offer_rsp : (s.offer r).rsp = some r := rfl
@[simp] theorem State.offer_host : (s.offer r).host = s.host := rfl
@[simp] theorem State.offer_taken : (s.offer r).taken = s.taken := rfl
@[simp] theorem State.offer_freeCount : (s.offer r).freeCount = s.freeCount := rfl

end

section
variable (s : State)

@[simp] theorem State.passEdge_phase : (s.passEdge).phase = s.phase := rfl
@[simp] theorem State.passEdge_L : (s.passEdge).L = s.L := rfl
@[simp] theorem State.passEdge_rate : (s.passEdge).rate = s.rate := rfl
@[simp] theorem State.passEdge_position : (s.passEdge).position = s.position := rfl
@[simp] theorem State.passEdge_words : (s.passEdge).words = s.words := rfl
@[simp] theorem State.passEdge_laneStorage : (s.passEdge).laneStorage = s.laneStorage := rfl
@[simp] theorem State.passEdge_rsp : (s.passEdge).rsp = s.rsp := rfl
@[simp] theorem State.passEdge_host : (s.passEdge).host = s.host.tail := rfl
@[simp] theorem State.passEdge_taken : (s.passEdge).taken = s.taken := rfl
@[simp] theorem State.passEdge_freeCount : (s.passEdge).freeCount = s.freeCount := rfl

end

section
variable (s : State) (j : Nat) (b : Byte)

@[simp] theorem State.xorByte_phase : (s.xorByte j b).phase = s.phase := rfl
@[simp] theorem State.xorByte_L : (s.xorByte j b).L = s.L := rfl
@[simp] theorem State.xorByte_rate : (s.xorByte j b).rate = s.rate := rfl
@[simp] theorem State.xorByte_position : (s.xorByte j b).position = s.position := rfl
@[simp] theorem State.xorByte_words : (s.xorByte j b).words = laneSwap s.laneStorage (xorByteAt s.lanes j b) := rfl
@[simp] theorem State.xorByte_laneStorage : (s.xorByte j b).laneStorage = s.laneStorage := rfl
@[simp] theorem State.xorByte_rsp : (s.xorByte j b).rsp = s.rsp := rfl
@[simp] theorem State.xorByte_host : (s.xorByte j b).host = s.host := rfl
@[simp] theorem State.xorByte_taken : (s.xorByte j b).taken = s.taken := rfl
@[simp] theorem State.xorByte_freeCount : (s.xorByte j b).freeCount = s.freeCount := rfl

end

section
variable (s : State)

@[simp] theorem State.advance_phase : (s.advance).phase = s.phase := rfl
@[simp] theorem State.advance_L : (s.advance).L = s.L := rfl
@[simp] theorem State.advance_rate : (s.advance).rate = s.rate := rfl
@[simp] theorem State.advance_position : (s.advance).position = s.position + 1 := rfl
@[simp] theorem State.advance_words : (s.advance).words = s.words := rfl
@[simp] theorem State.advance_laneStorage : (s.advance).laneStorage = s.laneStorage := rfl
@[simp] theorem State.advance_rsp : (s.advance).rsp = s.rsp := rfl
@[simp] theorem State.advance_host : (s.advance).host = s.host := rfl
@[simp] theorem State.advance_taken : (s.advance).taken = s.taken := rfl
@[simp] theorem State.advance_freeCount : (s.advance).freeCount = s.freeCount := rfl

end

/-! ### Updates with a case split: what they never touch, and the cases -/

section
variable (s : State)

@[simp] theorem State.closeBlock_phase : (s.closeBlock).phase = s.phase := by unfold State.closeBlock; split <;> rfl
@[simp] theorem State.closeBlock_L : (s.closeBlock).L = s.L := by unfold State.closeBlock; split <;> rfl
@[simp] theorem State.closeBlock_rate : (s.closeBlock).rate = s.rate := by unfold State.closeBlock; split <;> rfl
@[simp] theorem State.closeBlock_laneStorage : (s.closeBlock).laneStorage = s.laneStorage := by unfold State.closeBlock; split <;> rfl
@[simp] theorem State.closeBlock_rsp : (s.closeBlock).rsp = s.rsp := by unfold State.closeBlock; split <;> rfl
@[simp] theorem State.closeBlock_host : (s.closeBlock).host = s.host := by unfold State.closeBlock; split <;> rfl
@[simp] theorem State.closeBlock_taken : (s.closeBlock).taken = s.taken := by unfold State.closeBlock; split <;> rfl
@[simp] theorem State.closeBlock_freeCount : (s.closeBlock).freeCount = s.freeCount := by unfold State.closeBlock; split <;> rfl

@[simp] theorem State.openBlock_phase : (s.openBlock).phase = s.phase := by unfold State.openBlock; split <;> rfl
@[simp] theorem State.openBlock_L : (s.openBlock).L = s.L := by unfold State.openBlock; split <;> rfl
@[simp] theorem State.openBlock_rate : (s.openBlock).rate = s.rate := by unfold State.openBlock; split <;> rfl
@[simp] theorem State.openBlock_laneStorage : (s.openBlock).laneStorage = s.laneStorage := by unfold State.openBlock; split <;> rfl
@[simp] theorem State.openBlock_rsp : (s.openBlock).rsp = s.rsp := by unfold State.openBlock; split <;> rfl
@[simp] theorem State.openBlock_host : (s.openBlock).host = s.host := by unfold State.openBlock; split <;> rfl
@[simp] theorem State.openBlock_taken : (s.openBlock).taken = s.taken := by unfold State.openBlock; split <;> rfl
@[simp] theorem State.openBlock_freeCount : (s.openBlock).freeCount = s.freeCount := by unfold State.openBlock; split <;> rfl

theorem State.closeBlock_full (h : s.position = s.rate) : s.closeBlock = s.permute.setPosition 0 := if_pos h

theorem State.closeBlock_open (h : s.position ≠ s.rate) : s.closeBlock = s := if_neg h

theorem State.openBlock_used (h : s.rate ≤ s.position) : s.openBlock = s.permute.setPosition 0 := if_pos h

theorem State.openBlock_open (h : ¬ s.rate ≤ s.position) : s.openBlock = s := if_neg h

theorem State.takeResponse_some (r : ResponseWord) (h : s.rsp = some r) :
    s.takeResponse = { s with rsp := none, taken := s.taken ++ [r] } := by simp [State.takeResponse, h]

theorem State.takeResponse_none (h : s.rsp = none) : s.takeResponse = s := by simp [State.takeResponse, h]

@[simp] theorem State.takeResponse_rsp : s.takeResponse.rsp = none := by
  unfold State.takeResponse
  split
  · rfl
  · assumption

@[simp] theorem State.takeResponse_phase : s.takeResponse.phase = s.phase := by unfold State.takeResponse; split <;> rfl
@[simp] theorem State.takeResponse_L : s.takeResponse.L = s.L := by unfold State.takeResponse; split <;> rfl
@[simp] theorem State.takeResponse_rate : s.takeResponse.rate = s.rate := by unfold State.takeResponse; split <;> rfl
@[simp] theorem State.takeResponse_position : s.takeResponse.position = s.position := by unfold State.takeResponse; split <;> rfl
@[simp] theorem State.takeResponse_words : s.takeResponse.words = s.words := by unfold State.takeResponse; split <;> rfl
@[simp] theorem State.takeResponse_laneStorage : s.takeResponse.laneStorage = s.laneStorage := by unfold State.takeResponse; split <;> rfl
@[simp] theorem State.takeResponse_host : s.takeResponse.host = s.host := by unfold State.takeResponse; split <;> rfl
@[simp] theorem State.takeResponse_freeCount : s.takeResponse.freeCount = s.freeCount := by unfold State.takeResponse; split <;> rfl

end

section
variable (s : State) (suffix : Byte) (p : Phase)

@[simp] theorem State.finalize_phase : (s.finalize suffix p).phase = p := rfl
@[simp] theorem State.finalize_L : (s.finalize suffix p).L = s.L := rfl
@[simp] theorem State.finalize_rate : (s.finalize suffix p).rate = s.rate := rfl
@[simp] theorem State.finalize_position : (s.finalize suffix p).position = 0 := rfl
@[simp] theorem State.finalize_laneStorage : (s.finalize suffix p).laneStorage = s.laneStorage := rfl
@[simp] theorem State.finalize_rsp : (s.finalize suffix p).rsp = s.rsp := rfl
@[simp] theorem State.finalize_host : (s.finalize suffix p).host = s.host := rfl
@[simp] theorem State.finalize_taken : (s.finalize suffix p).taken = s.taken := rfl
@[simp] theorem State.finalize_freeCount : (s.finalize suffix p).freeCount = s.freeCount := rfl

end

/-! ### Reset edge (R200) -/

section
variable (s : State)

@[simp] theorem State.resetEdge_phase : s.resetEdge.phase = .idle := rfl
@[simp] theorem State.resetEdge_rsp : s.resetEdge.rsp = none := rfl
@[simp] theorem State.resetEdge_laneStorage : s.resetEdge.laneStorage = s.laneStorage := rfl
@[simp] theorem State.resetEdge_host : s.resetEdge.host = s.host := rfl
@[simp] theorem State.resetEdge_taken : s.resetEdge.taken = s.taken := rfl

end

/-! ### The views through an update -/

section
variable (s : State)

@[simp] theorem State.lanes_setLanes (A : Lanes) : (s.setLanes A).lanes = A := by
  simp [State.lanes]

@[simp] theorem State.lanes_xorByte (j : Nat) (b : Byte) : (s.xorByte j b).lanes = xorByteAt s.lanes j b := by
  simp [State.lanes]

/-- The permutation on the lane view, whatever the storage order (R109). -/
@[simp] theorem State.lanes_permute : s.permute.lanes = keccakRounds s.lanes := by
  simp [State.lanes, keccakF]

@[simp] theorem State.lanes_setPosition (p : Byte) : (s.setPosition p).lanes = s.lanes := rfl
@[simp] theorem State.lanes_setPhase (p : Phase) : (s.setPhase p).lanes = s.lanes := rfl
@[simp] theorem State.lanes_offer (r : ResponseWord) : (s.offer r).lanes = s.lanes := rfl
@[simp] theorem State.lanes_passEdge : s.passEdge.lanes = s.lanes := rfl
@[simp] theorem State.lanes_advance : s.advance.lanes = s.lanes := rfl
@[simp] theorem State.lanes_takeResponse : s.takeResponse.lanes = s.lanes := by simp [State.lanes]

/-- The lanes the two finalize commands leave: suffix, padding bit, permutation (R143, R144). -/
@[simp] theorem State.lanes_finalize (suffix : Byte) (p : Phase) :
    (s.finalize suffix p).lanes =
      keccakRounds (xorByteAt (xorByteAt s.lanes s.cursor suffix) s.padAddress 0x80) := by
  simp [State.finalize, State.padAddress]

theorem State.byte_of_lanes {t : State} (h : t.lanes = s.lanes) (j : Nat) : t.byte j = s.byte j := by
  simp [State.byte, h]

@[simp] theorem State.byte_setPosition (p : Byte) (j : Nat) : (s.setPosition p).byte j = s.byte j := rfl
@[simp] theorem State.byte_setPhase (p : Phase) (j : Nat) : (s.setPhase p).byte j = s.byte j := rfl
@[simp] theorem State.byte_offer (r : ResponseWord) (j : Nat) : (s.offer r).byte j = s.byte j := rfl
@[simp] theorem State.byte_advance (j : Nat) : s.advance.byte j = s.byte j := rfl

theorem State.byte_xorByte_same (j : Nat) (b : Byte) (hj : j < 200) :
    (s.xorByte j b).byte j = s.byte j ^^^ b := by
  simp [State.byte, byteAt_xorByteAt_same _ _ _ hj]

theorem State.byte_xorByte_other (j m : Nat) (b : Byte) (h : m ≠ j) :
    (s.xorByte j b).byte m = s.byte m := by
  simp [State.byte, byteAt_xorByteAt_other _ _ _ _ h]

end

end Sys2Proof.Machine
end

