-- ==== Sys2Proof/Laws/Ops.lean ====
section
/-! SUPPORT. Once for each shared operation and each meaning: everything it can do. -/

namespace Sys2Proof.Machine

/-- `respond` answers, and changes the pending response only. -/
@[simp] theorem respond_eq (d : Byte) (s : State) : respond d s = .next (s.offer (responseWord .ok d)) := rfl

/-- `raise` answers, and changes the pending response only. -/
@[simp] theorem raise_eq (status : Status) (s : State) : raise status s = .next (s.offer (responseWord status 0x00)) := rfl

/-- A response word as a number: the status above the data byte (R71). -/
theorem toNat_responseWord (status : Status) (d : Byte) :
    (responseWord status d).toNat = 256 * status.code.toNat + d.toNat := by
  have h : status.code.toNat < 4 := status.code.isLt
  rw [responseWord, BitVec.toNat_setWidth, BitVec.toNat_append, ← Nat.shiftLeft_add_eq_or_of_lt d.isLt,
    Nat.shiftLeft_eq]
  omega

/-- `OK/d` is the word `0x00dd` (R71). -/
theorem responseWord_ok (d : Byte) : responseWord .ok d = d.setWidth 16 := by
  rw [← BitVec.toNat_inj, toNat_responseWord, BitVec.toNat_setWidth, show Status.ok.code.toNat = 0 from rfl]
  omega

/-- The cursor advances without wrapping (R150). -/
theorem State.advance_toNat (s : State) (h : s.position.toNat < 255) :
    s.advance.position.toNat = s.position.toNat + 1 := by
  rw [State.advance_position, BitVec.toNat_add, show (1 : Byte).toNat = 1 from rfl]
  omega

/-- `ABSORB` closes the block exactly when the cursor reaches the rate (R142). -/
theorem State.closeBlock_absorbed (s : State) (data : Byte) (h : s.position.toNat < 255) :
    (s.xorByte s.cursor data).advance.closeBlock =
      if s.position.toNat + 1 = s.rate.toNat then (s.xorByte s.cursor data).permute.setPosition 0
      else (s.xorByte s.cursor data).advance := by
  have e : (s.xorByte s.cursor data).advance.position = (s.xorByte s.cursor data).advance.rate ↔
      s.position.toNat + 1 = s.rate.toNat := by
    rw [← BitVec.toNat_inj, State.advance_toNat _ (by simpa using h)]
    simp
  split
  · rw [State.closeBlock_full _ (e.2 ‹_›)]
    rfl
  · rw [State.closeBlock_open _ (fun h' => ‹¬ _› (e.1 h'))]

theorem initLengthLegal_iff (outLen : Byte) : initLengthLegal outLen = true ↔ outLen.toNat ≤ 99 := by
  simp [initLengthLegal, BitVec.le_def]

theorem digestIndexLegal_iff (s : State) (index : Byte) :
    digestIndexLegal s index = true ↔ index.toNat < s.L.toNat := by
  simp [digestIndexLegal, BitVec.lt_def]

/-- The rate of a legal length does not wrap (R150). -/
theorem toNat_rateOf (outLen : Byte) (h : outLen.toNat ≤ 99) : (rateOf outLen).toNat = 200 - 2 * outLen.toNat := by
  have e : (2 * outLen : Byte).toNat = 2 * outLen.toNat := by
    rw [BitVec.toNat_mul, show (2 : Byte).toNat = 2 from rfl]
    omega
  rw [rateOf, BitVec.toNat_sub, e, show (200 : Byte).toNat = 200 from rfl]
  omega

/-- The context a legal `INIT` creates (R141). -/
def State.created (s : State) (outLen : Byte) : State :=
  { s.setLanes zeroLanes with L := outLen, rate := rateOf outLen, position := 0, phase := .absorbing }

@[simp] theorem State.lanes_created (s : State) (outLen : Byte) : (s.created outLen).lanes = zeroLanes := by
  simp [State.lanes, State.created]

theorem execInit_ok (outLen : Byte) (s : State) (h : outLen.toNat ≤ 99) :
    execInit outLen s = .next ((s.created outLen).offer (responseWord .ok 0x00)) := by
  simp [execInit, (initLengthLegal_iff outLen).2 h, State.created]

theorem execInit_misuse (outLen : Byte) (s : State) (h : 99 < outLen.toNat) :
    execInit outLen s = .next (s.offer (responseWord .misuse 0x00)) := by
  have h' : ¬ initLengthLegal outLen = true := by rw [initLengthLegal_iff]; omega
  simp [execInit, h']

theorem execAbsorb_ok (data : Byte) (s : State) (h : s.phase = .absorbing) :
    execAbsorb data s =
      .next ((s.xorByte s.cursor data).advance.closeBlock.offer (responseWord .ok 0x00)) := by
  simp [execAbsorb, h]

theorem execFinalSha3_ok (s : State) (h : s.phase = .absorbing) :
    execFinalSha3 s = .next ((s.finalize 0x06 .digest).offer (responseWord .ok 0x00)) := by
  simp [execFinalSha3, h]

theorem execFinalShake_ok (s : State) (h : s.phase = .absorbing) :
    execFinalShake s = .next ((s.finalize 0x1F .squeezing).offer (responseWord .ok 0x00)) := by
  simp [execFinalShake, h]

theorem execSqueeze_ok (s : State) (h : s.phase = .squeezing) :
    execSqueeze s =
      .next (s.openBlock.advance.offer (responseWord .ok (s.openBlock.byte s.openBlock.cursor))) := by
  simp [execSqueeze, h]

theorem execDigestRead_ok (index : Byte) (s : State) (h : s.phase = .digest) (hk : index.toNat < s.L.toNat) :
    execDigestRead index s = .next (s.offer (responseWord .ok (s.byte index.toNat))) := by
  simp [execDigestRead, h, (digestIndexLegal_iff s index).2 hk, digestAddress]

theorem execDigestRead_misuse (index : Byte) (s : State) (h : s.phase = .digest) (hk : ¬ index.toNat < s.L.toNat) :
    execDigestRead index s = .next (s.offer (responseWord .misuse 0x00)) := by
  have h' : ¬ digestIndexLegal s index = true := by rw [digestIndexLegal_iff]; exact hk
  simp [execDigestRead, h, h']

/-- Everything a command can do (R141 to R147): it is answered with an error and nothing else changes, or it is one of the
six completions, each with its condition. -/
theorem exec_cases (i : Instr) (s : State) :
    (∃ status, status ≠ .ok ∧ exec i s = .next (s.offer (responseWord status 0x00))) ∨
    (∃ outLen, i = .init outLen ∧ outLen.toNat ≤ 99 ∧
      exec i s = .next ((s.created outLen).offer (responseWord .ok 0x00))) ∨
    (∃ data, i = .absorb data ∧ s.phase = .absorbing ∧
      exec i s = .next ((s.xorByte s.cursor data).advance.closeBlock.offer (responseWord .ok 0x00))) ∨
    (i = .finalSha3 ∧ s.phase = .absorbing ∧
      exec i s = .next ((s.finalize 0x06 .digest).offer (responseWord .ok 0x00))) ∨
    (i = .finalShake ∧ s.phase = .absorbing ∧
      exec i s = .next ((s.finalize 0x1F .squeezing).offer (responseWord .ok 0x00))) ∨
    (i = .squeeze ∧ s.phase = .squeezing ∧
      exec i s = .next (s.openBlock.advance.offer (responseWord .ok (s.openBlock.byte s.openBlock.cursor)))) ∨
    (∃ index, i = .digestRead index ∧ s.phase = .digest ∧ index.toNat < s.L.toNat ∧
      exec i s = .next (s.offer (responseWord .ok (s.byte index.toNat)))) := by
  cases i with
  | init outLen =>
    by_cases h : outLen.toNat ≤ 99
    · exact .inr (.inl ⟨outLen, rfl, h, execInit_ok outLen s h⟩)
    · exact .inl ⟨.misuse, by decide, execInit_misuse outLen s (by omega)⟩
  | absorb data =>
    by_cases h : s.phase = .absorbing
    · exact .inr (.inr (.inl ⟨data, rfl, h, execAbsorb_ok data s h⟩))
    · exact .inl ⟨.invalidState, by decide, by simp [exec, execAbsorb, h]⟩
  | finalSha3 =>
    by_cases h : s.phase = .absorbing
    · exact .inr (.inr (.inr (.inl ⟨rfl, h, execFinalSha3_ok s h⟩)))
    · exact .inl ⟨.invalidState, by decide, by simp [exec, execFinalSha3, h]⟩
  | finalShake =>
    by_cases h : s.phase = .absorbing
    · exact .inr (.inr (.inr (.inr (.inl ⟨rfl, h, execFinalShake_ok s h⟩))))
    · exact .inl ⟨.invalidState, by decide, by simp [exec, execFinalShake, h]⟩
  | squeeze =>
    by_cases h : s.phase = .squeezing
    · exact .inr (.inr (.inr (.inr (.inr (.inl ⟨rfl, h, execSqueeze_ok s h⟩)))))
    · exact .inl ⟨.invalidState, by decide, by simp [exec, execSqueeze, h]⟩
  | digestRead index =>
    by_cases h : s.phase = .digest
    · by_cases hk : index.toNat < s.L.toNat
      · exact .inr (.inr (.inr (.inr (.inr (.inr ⟨index, rfl, h, hk, execDigestRead_ok index s h hk⟩)))))
      · exact .inl ⟨.misuse, by decide, execDigestRead_misuse index s h hk⟩
    · exact .inl ⟨.invalidState, by decide, by simp [exec, execDigestRead, h]⟩

/-- No command touches the host's pins, the responses taken, the lane storage or the count of free values. -/
theorem exec_surroundings {i : Instr} {s t : State} (h : exec i s = .next t) :
    t.host = s.host ∧ t.taken = s.taken ∧ t.laneStorage = s.laneStorage ∧ t.freeCount = s.freeCount := by
  obtain ⟨_, _, e⟩ | ⟨_, _, _, e⟩ | ⟨_, _, _, e⟩ | ⟨_, _, e⟩ | ⟨_, _, e⟩ | ⟨_, _, e⟩ | ⟨_, _, _, _, e⟩ := exec_cases i s <;>
    (rw [e] at h; injection h with h; subst h; simp [State.created])

end Sys2Proof.Machine
end

