-- ==== Sys2Proof/Laws/PerInstr.lean ====
section
/-! SUPPORT. Statements made per instruction, one lemma per constructor of `Instr`. -/

namespace Sys2Proof.Laws

/-- The encoder gives a word that passes the three checks of spec/30_encoding.md R76. -/
def EncodesWellFormed.Statement (i : Instr) : Prop := CommandWord.wellFormed (encode i) = true

theorem commandWord_fields (op imm : Byte) :
    CommandWord.op (commandWord op imm) = op ∧ CommandWord.res (commandWord op imm) = 0 ∧
      CommandWord.imm8 (commandWord op imm) = imm := by
  refine ⟨?_, ?_, ?_⟩ <;> apply BitVec.eq_of_getLsbD_eq <;> intro z hz
  · have h1 : ¬ 24 + z < 24 := by omega
    have h2 : 24 + z < 32 := by omega
    have h3 : imm.getLsbD (24 + z) = false := BitVec.getLsbD_of_ge _ _ (by omega)
    simp [CommandWord.op, commandWord, hz, h2, h3]
  · have h2 : 8 + z < 32 := by omega
    have h3 : 8 + z < 24 := by omega
    simp [CommandWord.res, commandWord, h2, h3]
  · have h2 : z < 32 := by omega
    have h3 : z < 24 := by omega
    simp [CommandWord.imm8, commandWord, hz, h2, h3]

theorem EncodesWellFormed.of_operand (op imm : Byte) (h : 0x01 ≤ op ∧ op ≤ 0x06)
    (h0 : (op = 0x03 ∨ op = 0x04) ∨ op = 0x05 → imm = 0) :
    CommandWord.wellFormed (commandWord op imm) = true := by
  obtain ⟨ho, hr, hi⟩ := commandWord_fields op imm
  simp only [CommandWord.wellFormed, CommandWord.opcodeDefined, CommandWord.reservedZero, CommandWord.operandAllowed,
    ho, hr, hi]
  simp at h h0 ⊢
  tauto

theorem EncodesWellFormed.init (outLen : Byte) : EncodesWellFormed.Statement (.init outLen) :=
  EncodesWellFormed.of_operand _ _ (by decide) (fun h => absurd h (by decide))

theorem EncodesWellFormed.absorb (data : Byte) : EncodesWellFormed.Statement (.absorb data) :=
  EncodesWellFormed.of_operand _ _ (by decide) (fun h => absurd h (by decide))

theorem EncodesWellFormed.finalSha3 : EncodesWellFormed.Statement .finalSha3 := by
  show CommandWord.wellFormed _ = true
  decide

theorem EncodesWellFormed.finalShake : EncodesWellFormed.Statement .finalShake := by
  show CommandWord.wellFormed _ = true
  decide

theorem EncodesWellFormed.squeeze : EncodesWellFormed.Statement .squeeze := by
  show CommandWord.wellFormed _ = true
  decide

theorem EncodesWellFormed.digestRead (index : Byte) : EncodesWellFormed.Statement (.digestRead index) :=
  EncodesWellFormed.of_operand _ _ (by decide) (fun h => absurd h (by decide))

end Sys2Proof.Laws
end

