-- ==== Sys2Proof/Laws/Step.lean ====
section
/-! SUPPORT. Once, everything a step can do. -/

namespace Sys2Proof.Machine

/-- Everything a step can do (R62, R140, R200, R203, R204, R206). -/
theorem step_cases (s : State) :
    (s.edge.driver = .secondHost ∧ step s = .refused .secondHost) ∨
    (s.edge.driver = .owner ∧ s.edge.rst = true ∧ step s = .next s.passEdge.resetEdge) ∨
    (s.edge.driver = .owner ∧ s.edge.rst = false ∧ s.rsp = none ∧ s.edge.cmdValid = true ∧
      step s = runWord s.edge.cmdData s.passEdge) ∨
    (s.edge.driver = .owner ∧ s.edge.rst = false ∧ s.edge.rspReady = true ∧
      (∃ r, s.rsp = some r) ∧ step s = .next s.passEdge.takeResponse) ∨
    (s.edge.driver = .owner ∧ s.edge.rst = false ∧ (s.rsp = none → s.edge.cmdValid = false) ∧
      ((∃ r, s.rsp = some r) → s.edge.rspReady = false) ∧ step s = .next s.passEdge) := by
  cases hd : s.edge.driver with
  | secondHost => exact .inl ⟨rfl, by simp [step, State.portEvent, hd]⟩
  | owner =>
    refine .inr ?_
    cases hr : s.edge.rst
    · refine .inr ?_
      cases hp : s.rsp with
      | none =>
        cases hc : s.edge.cmdValid
        · refine .inr (.inr ⟨rfl, rfl, by simp, by simp, ?_⟩)
          simp [step, State.portEvent, State.rspValid, hd, hr, hp, hc]
        · refine .inl ⟨rfl, rfl, rfl, rfl, ?_⟩
          simp [step, State.portEvent, State.cmdReady, hd, hr, hp, hc]
      | some r =>
        cases hc : s.edge.rspReady
        · refine .inr (.inr ⟨rfl, rfl, by simp, by simp, ?_⟩)
          simp [step, State.portEvent, State.cmdReady, hd, hr, hp, hc]
        · refine .inr (.inl ⟨rfl, rfl, rfl, ⟨r, rfl⟩, ?_⟩)
          simp [step, State.portEvent, State.cmdReady, State.rspValid, hd, hr, hp, hc]
    · refine .inl ⟨rfl, rfl, ?_⟩
      simp [step, State.portEvent, hd, hr]

/-- Running a word: its command, or the answer to an illegal word (R140, R183). -/
theorem runWord_cases (w : CommandWord) (s : State) :
    (∃ i, decode w = .ok i ∧ runWord w s = exec i s) ∨
    (∃ e, decode w = .error e ∧ runWord w s = .next (s.offer (responseWord .illegal 0x00))) := by
  cases h : decode w with
  | ok i => exact .inl ⟨i, rfl, by simp [runWord, h]⟩
  | error e => exact .inr ⟨e, rfl, by simp [runWord, h]⟩

/-- A step leaves the build's lane storage alone. -/
theorem step_laneStorage {s t : State} (h : step s = .next t) : t.laneStorage = s.laneStorage := by
  obtain ⟨_, e⟩ | ⟨_, _, e⟩ | ⟨_, _, _, _, e⟩ | ⟨_, _, _, _, e⟩ | ⟨_, _, _, _, e⟩ := step_cases s <;> rw [e] at h
  · cases h
  · injection h with h; subst h; simp
  · obtain ⟨i, _, e'⟩ | ⟨_, _, e'⟩ := runWord_cases s.edge.cmdData s.passEdge
    · rw [e'] at h
      exact (exec_surroundings h).2.2.1
    · rw [e'] at h; injection h with h; subst h; simp
  · injection h with h; subst h; simp
  · injection h with h; subst h; simp

end Sys2Proof.Machine
end

