-- ==== Sys2Proof/Laws/Run.lean ====
section
/-! SUPPORT. What a transaction and a sequence of transactions can do, said once. -/

namespace Sys2Proof.Machine

/-- Every word is answered, and the responses taken are as before (R78, R195). -/
theorem runWord_answers (w : CommandWord) (s : State) :
    ∃ t r, runWord w s = .next t ∧ t.rsp = some r ∧ t.taken = s.taken := by
  obtain ⟨i, -, e⟩ | ⟨_, -, e⟩ := runWord_cases w s
  · obtain ⟨_, _, e'⟩ | ⟨_, _, _, e'⟩ | ⟨_, _, _, e'⟩ | ⟨_, _, e'⟩ | ⟨_, _, e'⟩ | ⟨_, _, e'⟩ | ⟨_, _, _, _, e'⟩ := exec_cases i s <;>
      exact ⟨_, _, e.trans e', rfl, (exec_surroundings e').2.1⟩
  · exact ⟨_, _, e, rfl, rfl⟩

/-- A transaction is the word's run and the transfer of its one response. -/
theorem transact_cases (w : CommandWord) (s : State) :
    ∃ t r, runWord w s = .next t ∧ t.rsp = some r ∧ t.taken = s.taken ∧
      transact w s = .next { t with rsp := none, taken := s.taken ++ [r] } := by
  obtain ⟨t, r, e, hr, ht⟩ := runWord_answers w s
  exact ⟨t, r, e, hr, ht, by simp [transact, e, State.takeResponse, hr, ht]⟩

/-- A sequence of transactions in two parts. -/
theorem transactAll_append {us : List CommandWord} {s u : State} (h : transactAll us s = .next u)
    (vs : List CommandWord) : transactAll (us ++ vs) s = transactAll vs u := by
  induction us generalizing s with
  | nil => cases h; rfl
  | cons w us ih =>
    obtain ⟨t, r, -, -, -, e⟩ := transact_cases w s
    simp only [transactAll, e] at h
    simpa only [List.cons_append, transactAll, e] using ih h

end Sys2Proof.Machine
end

