-- ==== Sys2Proof/Tests/Slice0.lean ====
section
/-! SUPPORT. The implementer's own tests, each one step or less on a small state, with the expected result taken from
spec/95_test_vectors.md or from the rule named; the smoke tests of the well-formedness checks; and, under `witness_`, a
concrete state and operands that meet the hypotheses of each statement. -/

open Sys2Proof Sys2Proof.Machine

namespace Sys2Proof.Tests

/-- A context of output length `l` in phase `p` at position `pos`, with the all-zero state. -/
def ctx (p : Phase) (l pos : Nat) : State :=
  { State.reset with
    phase := p, L := BitVec.ofNat 8 l, rate := BitVec.ofNat 8 (200 - 2 * l), position := BitVec.ofNat 8 pos }

/-- The next state of an outcome, if it is one. -/
def after : Host.Outcome State Fault Refusal → Option State
  | .next t => some t
  | .fault _ => none
  | .refused _ => none

/-- The response of an outcome as a number. -/
def answer (o : Host.Outcome State Fault Refusal) : Option Nat := (after o).bind fun t => t.rsp.map BitVec.toNat

/-- The lanes that are not zero, by index. -/
def lanesOf (nonzero : List (Nat × Lane)) : Lanes := nonzero.foldl (fun A p => setLaneAt A p.1 p.2) zeroLanes

/-! ### Decoding: words written out bit by bit from 30_encoding.md R70 and R73 -/

theorem test_decode_init : (decode 0b00000001000000000000000001100011).toOption = some (.init 99) := by decide
theorem test_decode_absorb : (decode 0b00000010000000000000000010000001).toOption = some (.absorb 0x81) := by decide
theorem test_decode_finalSha3 : (decode 0b00000011000000000000000000000000).toOption = some .finalSha3 := by decide
theorem test_decode_finalShake : (decode 0b00000100000000000000000000000000).toOption = some .finalShake := by decide
theorem test_decode_squeeze : (decode 0b00000101000000000000000000000000).toOption = some .squeeze := by decide
theorem test_decode_digestRead : (decode 0b00000110000000000000000011001000).toOption = some (.digestRead 200) := by decide
theorem test_decodeTableWord : decodeTableWord 32 0x0600001F = some (.digestRead 31) := by decide

/-! ### Well-formedness: an ill-formed term for each check, refused (R76; V-E14 to V-E22) -/

theorem test_illformed_opcode_0 : CommandWord.wellFormed 0x00000000 = false := by decide
theorem test_illformed_opcode_7 : CommandWord.opcodeDefined 0x07000000 = false := by decide
theorem test_illformed_opcode_255 : CommandWord.wellFormed 0xFF000000 = false := by decide
theorem test_illformed_reserved_bit_23 : CommandWord.reservedZero 0x01800020 = false := by decide
theorem test_illformed_reserved_bit_8 : CommandWord.wellFormed 0x05000100 = false := by decide
theorem test_illformed_operand : CommandWord.operandAllowed 0x03000080 = false := by decide
theorem test_wellformed_init_255 : CommandWord.wellFormed 0x010000FF = true := by decide
theorem test_asm_operand_256 : (AsmLine.absorb 256).expand none = .error .operandTooLarge := rfl
theorem test_asm_hash_length_29 : (AsmLine.hash 29 []).expand none = .error .hashLength := rfl
theorem test_asm_shake_bits_512 : (AsmLine.streamOpen 512).expand none = .error .shakeBits := rfl
theorem test_asm_not_ascii : (AsmLine.absorbStr [0x61, 0x80]).expand none = .error .notAscii := rfl
theorem test_asm_digest_all_first : (AsmLine.digestAll).expand none = .error .noInit := rfl
theorem test_asm_two_operands : (parseLine "SQUEEZE 1".toList).toOption = none := by decide +kernel

/-! ### The assembler (R80, R81; words of P1 and P2) -/

theorem test_asm_text : (assembleText "INIT 32 ; first\nABSORB 0x61\n\nABSORB.STR \"b;\"".toList).toOption =
    some [0x01000020, 0x02000061, 0x02000062, 0x0200003B] := by decide +kernel

theorem test_asm_stream : (assembleText "STREAM.OPEN 128\nSTREAM.WRITE 41\nSTREAM.FINISH\nSTREAM.READ 2".toList).toOption =
    some [0x01000010, 0x02000041, 0x04000000, 0x05000000, 0x05000000] := by decide +kernel

theorem test_asm_shake : (assembleText "SHAKE 256, 0aFF, 1".toList).toOption =
    some [0x01000020, 0x0200000A, 0x020000FF, 0x04000000, 0x05000000] := by decide +kernel

/-! ### The round constants (R32), three of each column of the table -/

theorem test_RC : RC[1] = 0x8082 ∧ RC[(7 : Fin 24)] = 0x8000000000008009 ∧ RC[8] = 0x8A ∧ RC[13] = 0x800000000000008B ∧
    RC[15] = 0x8000000000008003 ∧ RC[16] = 0x8000000000008002 ∧ RC[20] = 0x8000000080008081 ∧
    RC[23] = 0x8000000080008008 ∧ RC[0] = 1 := by decide

/-! ### The stages of the permutation (95 section 2.1) -/

/-- V-P4, second row. -/
theorem test_theta_wraps : theta (lanesOf [(5, 0x8000000000000000)]) =
    lanesOf ([1, 5, 6, 11, 16, 21].map (·, 0x8000000000000000) ++ [4, 9, 14, 19, 24].map (·, 1)) := by decide +kernel

/-- V-P5. -/
theorem test_rhoPi_lane_6 : rhoPi (lanesOf [(6, 1)]) = lanesOf [(1, 0x100000000000)] := by decide +kernel
theorem test_rhoPi_wraps : rhoPiScratch (lanesOf [(1, 0x8000000000000000)]) = lanesOf [(10, 1)] := by decide +kernel

/-- V-P6, first row: an in-place update would fail it. -/
theorem test_chi_old_values : chi (lanesOf [(0, 1), (1, 2), (2, 4)]) =
    lanesOf [(0, 5), (1, 2), (2, 4), (3, 1), (4, 2)] := by decide +kernel

/-- V-P8: round 0 from `{0: 1}`. -/
theorem test_round_0 : keccakRound (lanesOf [(0, 1)]) RC[0] = lanesOf [
    (1, 0x100000000000), (2, 0x8000), (3, 0x1), (4, 0x100000008000), (6, 0x200000200000), (8, 0x200000000000),
    (9, 0x200000), (10, 0x2), (11, 0x200), (13, 0x202), (15, 0x10000400), (17, 0x400), (18, 0x10000000),
    (20, 0x10000000000), (22, 0x10000000004), (24, 0x4)] := by decide +kernel

/-- V-P9. -/
theorem test_bswap64 : bswap64 0x0102030405060708 = 0x0807060504030201 := by decide

/-! ### The commands (95 section 2.2) -/

/-- V-C1 and V-C3. -/
theorem test_init_32 : ((after (exec (.init 32) (ctx .digest 99 0))).map fun t =>
    (t.phase, t.L.toNat, t.rate.toNat, t.position.toNat)) = some (.absorbing, 32, 136, 0) := by decide
theorem test_init_99 : ((after (exec (.init 99) State.reset)).map fun t => t.rate.toNat) = some 2 := by decide

/-- V-C6. -/
theorem test_absorb_first : ((after (exec (.absorb 0x61) (ctx .absorbing 32 0))).map fun t =>
    (t.byte 0, t.byte 1, t.position, t.rsp)) = some (0x61, 0x00, 1, some 0x0000) := by decide

/-- V-C7's position: the byte that fills the block resets it. -/
theorem test_absorb_last : ((after (exec (.absorb 0x61) (ctx .absorbing 32 135))).map fun t =>
    (t.position, t.phase)) = some (0, .absorbing) := by decide

/-- 95 section 1.2: both XORs hit the byte at `rate - 1`. -/
theorem test_final_coincident_padding :
    byteAt (xorByteAt (xorByteAt (setByteAt zeroLanes 135 0x61) 135 0x06) 135 0x80) 135 = 0xE7 := by decide

/-- W-1, V-C9: SHA3-256 of the empty message. -/
theorem test_sha3_256_empty : ((after (exec .finalSha3 (ctx .absorbing 32 0))).map fun t =>
    (List.range 32).map fun j => (t.byte j).toNat) = some [
    0xa7, 0xff, 0xc6, 0xf8, 0xbf, 0x1e, 0xd7, 0x66, 0x51, 0xc1, 0x47, 0x56, 0xa0, 0x61, 0xd6, 0x62,
    0xf5, 0x80, 0xff, 0x4d, 0xe4, 0x3b, 0x49, 0xfa, 0x82, 0xd8, 0x0a, 0x4b, 0x80, 0xf8, 0x43, 0x4a] := by decide +kernel

/-- W-3, V-C10: SHAKE128 of the empty message, on a build that stores its lanes big-endian. -/
theorem test_shake128_empty_big_endian :
    ((after (exec .finalShake { ctx .absorbing 16 0 with laneStorage := .be })).map fun t =>
      (List.range 8).map fun j => (t.byte j).toNat) = some [0x7f, 0x9c, 0x2b, 0xa4, 0xe8, 0x8f, 0x82, 0x7d] := by
  decide +kernel

/-- V-C11's shape: the byte is read before the cursor advances. -/
theorem test_squeeze_reads_then_advances :
    ((after (exec .squeeze ((ctx .squeezing 16 3).xorByte 3 0x7F))).map fun t => (t.rsp, t.position)) =
      some (some 0x007F, 4) := by decide

/-- V-C12's shape: at a used-up block the cursor restarts. -/
theorem test_squeeze_used_block : ((after (exec .squeeze (ctx .squeezing 16 168))).map fun t => t.position) =
    some 1 := by decide

/-- V-C14's shape and V-C15. -/
theorem test_digestRead_last : answer (exec (.digestRead 31) ((ctx .digest 32 0).xorByte 31 0x4A)) = some 0x004A := by decide
theorem test_digestRead_misuse : answer (exec (.digestRead 32) (ctx .digest 32 0)) = some 0x0200 := by decide

/-! ### Errors (95 section 2.3) -/

/-- V-E1, V-E4, V-E6, V-E8, V-E11, V-E13. -/
theorem test_invalid_state : [
    answer (exec (.absorb 0x61) State.reset), answer (exec .squeeze (ctx .absorbing 16 0)),
    answer (exec (.digestRead 200) (ctx .absorbing 32 0)), answer (exec .finalShake (ctx .squeezing 16 0)),
    answer (exec .squeeze (ctx .digest 32 0)), answer (exec .finalSha3 (ctx .digest 32 0))] =
    List.replicate 6 (some 0x0100) := by decide

/-- V-E14, V-E17, V-E21, and V-E23. -/
theorem test_illegal_and_misuse : [
    answer (runWord 0x00000000 State.reset), answer (runWord 0x05000001 (ctx .squeezing 16 0)),
    answer (runWord 0x06010000 (ctx .digest 32 0)), answer (runWord 0x01000064 State.reset)] =
    [some 0x0300, some 0x0300, some 0x0300, some 0x0200] := by decide

/-! ### Steps (70_reset_and_hazards.md) -/

theorem test_step_runs_word : ((after (step (State.reset.withFetchWord 32 0x01000020))).map fun t =>
    (t.phase, t.rate.toNat, t.rsp, t.host)) = some (.absorbing, 136, some 0x0000, []) := by decide

/-- R203, R204: a response is taken before the next command is accepted, although both are offered. -/
theorem test_step_response_first :
    ((after (step { ctx .absorbing 32 0 with
      rsp := some 0x0000, host := [{ sendEdge 0x02000061 with rspReady := true }] })).map fun t =>
      (t.rsp, t.taken, t.position)) = some (none, [0x0000], 0) := by decide

/-- R200: reset wins over a command offered at the same edge, and drops the response. -/
theorem test_step_reset_wins :
    ((after (step { ctx .absorbing 32 5 with
      rsp := some 0x0000, host := [{ sendEdge 0x02000061 with rst := true, rspReady := true }] })).map fun t =>
      (t.phase, t.rsp, t.taken)) = some (.idle, none, []) := by decide

/-- After a reset edge the first `INIT` leaves no free value behind. -/
theorem test_init_after_reset_edge : ((after (exec (.init 99) (ctx .digest 32 0).resetEdge)).map fun t =>
    (t.words, t.L, t.rate, t.position)) = some (zeroLanes, 99, 2, 0) := by decide

/-! ### Witnesses: the hypotheses of each statement are met together -/

/-- A host that offers a word to a free block. -/
def offering (w : CommandWord) : State := { ctx .absorbing 32 0 with host := [sendEdge w] }

/-- A block with a pending response and the given edge next. -/
def pending (e : HostEdge) : State := { ctx .absorbing 32 1 with rsp := some 0x0000, host := [e] }

theorem witness_EncodeAfterDecodeIsIdentity : decode 0x020000FF = .ok (.absorb 0xFF) := by decide
theorem witness_IllegalWordsAreExactly : decode 0x06010000 = .error .reservedBits := by decide
theorem witness_ResponseWordLayout : ∃ t, runWord 0x05000000 (ctx .squeezing 16 0) = .next t := ⟨_, rfl⟩
theorem witness_ResponseWordLayout_squeeze : decode 0x05000000 = .ok .squeeze ∧
    ∃ t, runWord 0x05000000 (ctx .squeezing 16 167) = .next t ∧ t.rsp = some (responseWord .ok 0x00) := ⟨by decide, _, rfl, rfl⟩
theorem witness_ResponseWordLayout_digestRead : decode 0x06000062 = .ok (.digestRead 98) ∧
    ∃ t, runWord 0x06000062 (ctx .digest 99 0) = .next t ∧ t.rsp = some (responseWord .ok 0x00) := ⟨by decide, _, rfl, rfl⟩
theorem witness_ByteAndLaneViewsAgree : (24 < 25 ∧ 7 < 8) ∧ (0 < 25 ∧ 0 < 8) := by decide
theorem witness_LaneBitIsByteBit : 24 < 25 ∧ 63 < 64 := by decide
theorem witness_WritesAreSeenThroughBothViews : 199 < 200 ∧ 198 ≠ 199 ∧ 23 ≠ 199 / 8 ∧ 24 < 25 ∧ 191 / 8 ≠ 24 := by decide
theorem witness_MemReadAfterMemWrite :
    ((8 = 1 ∨ 8 = 8) ∧ 192 + 8 ≤ 200) ∧ ((1 = 1 ∨ 1 = 8) ∧ 199 + 1 ≤ 200) ∧
    ¬ ((8 = 1 ∨ 8 = 8) ∧ 193 + 8 ≤ 200) ∧ ¬ ((2 = 1 ∨ 2 = 8) ∧ 0 + 2 ≤ 200) := by decide
theorem witness_RotationAndByteSwap : (63 < 64 ∧ 0 < 64) ∧ (0 < 1 ∧ 63 < 64) ∧ 7 < 8 := by decide
theorem witness_ThetaBitByBit : 24 < 25 ∧ 63 < 64 := by decide
theorem witness_ChiUsesTheOldRow : 4 < 5 ∧ 0 < 5 := by decide
theorem witness_RoundConstantBits : (RC[(2 : Fin 24)]).getLsbD 63 = true := by decide

/-- A big-endian build: the first lane state of the statement is the stored word with its bytes reversed. -/
theorem witness_RoundsRunInIncreasingOrder : 24 < 25 ∧ laneAt (laneSwap .be (lanesOf [(24, 1)])) 24 = bswap64 1 := by decide +kernel

theorem witness_LaneStorageIsNeverObserved :
    SameButStorage { ctx .absorbing 32 7 with words := lanesOf [(0, 0x61)] }
      { ctx .absorbing 32 7 with words := lanesOf [(0, 0x6100000000000000)], laneStorage := .be } :=
  ⟨rfl, by decide +kernel⟩

theorem witness_InitCreatesTheContext : (99 : Byte).toNat ≤ 99 ∧ 99 < (100 : Byte).toNat := by decide
theorem witness_AbsorbTakesOneByte_refused : (ctx .squeezing 32 0).phase ≠ .absorbing := by decide
theorem witness_AbsorbTakesOneByte_open : (ctx .absorbing 32 134).phase = .absorbing ∧ (ctx .absorbing 32 134).Inv ∧
    (ctx .absorbing 32 134).position.toNat + 1 < (ctx .absorbing 32 134).rate.toNat := by decide
theorem witness_AbsorbTakesOneByte_full : (ctx .absorbing 99 1).phase = .absorbing ∧ (ctx .absorbing 99 1).Inv ∧
    (ctx .absorbing 99 1).position.toNat + 1 = (ctx .absorbing 99 1).rate.toNat := by decide
theorem witness_FinalSha3InjectsAndPermutes : (ctx .absorbing 0 199).phase = .absorbing ∧ (ctx .absorbing 0 199).Inv := by decide
theorem witness_FinalSha3InjectsAndPermutes_refused : (ctx .digest 32 0).phase ≠ .absorbing := by decide
theorem witness_FinalShakeInjectsAndPermutes : (ctx .absorbing 16 0).phase = .absorbing ∧ (ctx .absorbing 16 0).Inv := by decide
theorem witness_FinalShakeInjectsAndPermutes_refused : (ctx .idle 16 0).phase ≠ .absorbing := by decide
theorem witness_SqueezeReadsOneByte_open : (ctx .squeezing 16 167).phase = .squeezing ∧ (ctx .squeezing 16 167).Inv ∧
    (ctx .squeezing 16 167).position.toNat < (ctx .squeezing 16 167).rate.toNat := by decide
theorem witness_SqueezeReadsOneByte_used : (ctx .squeezing 16 168).phase = .squeezing ∧ (ctx .squeezing 16 168).Inv ∧
    (ctx .squeezing 16 168).rate.toNat ≤ (ctx .squeezing 16 168).position.toNat := by decide
theorem witness_SqueezeReadsOneByte_refused : (ctx .absorbing 16 0).phase ≠ .squeezing := by decide
theorem witness_DigestReadAnswersOneByte : (ctx .digest 99 0).phase = .digest ∧
    (98 : Byte).toNat < (ctx .digest 99 0).L.toNat ∧ (ctx .digest 99 0).L.toNat ≤ (99 : Byte).toNat := by decide
theorem witness_DigestReadAnswersOneByte_refused : (ctx .absorbing 99 0).phase ≠ .digest := by decide
theorem witness_PhaseTable : statusTable .digest 32 (.digestRead 31) = .ok ∧ statusTable .digest 32 (.digestRead 32) ≠ .ok ∧
    decode 0x07000000 = .error .undefinedOpcode := by decide
theorem witness_PhaseTable_leaves : ∃ t, exec (.init 0) (ctx .squeezing 16 0) = .next t ∧
    ((ctx .squeezing 16 0).phase = .digest ∨ (ctx .squeezing 16 0).phase = .squeezing) ∧
    t.phase ≠ (ctx .squeezing 16 0).phase := ⟨_, rfl, by decide⟩
theorem witness_OneStatusByPriority : decode 0x06010000 = .error .reservedBits ∧
    ((ctx .absorbing 32 0).phase ≠ .digest ∧ (ctx .absorbing 32 0).L.toNat ≤ (200 : Byte).toNat) ∧
    99 < (100 : Byte).toNat ∧ (ctx .absorbing 32 0).phase = .absorbing := by decide
theorem witness_RefusedWordChangesNothing : ∃ t, runWord 0x02000061 State.reset = .next t ∧
    t.rsp.map responseStatus ≠ some 0 := ⟨_, rfl, by decide⟩
theorem witness_OnlyInitWritesRateAndLength : ∃ t, exec (.init 99) State.reset = .next t := ⟨_, rfl⟩
theorem witness_CapacityChangesByPermutationOnly : (ctx .absorbing 32 0).Inv ∧
    (∀ outLen, Instr.absorb 0x61 ≠ .init outLen) ∧ ∃ t, exec (.absorb 0x61) (ctx .absorbing 32 0) = .next t :=
  ⟨by decide, fun _ => nofun, _, rfl⟩
theorem witness_EveryStepKeepsTheInvariant : (offering 0x02000061).Inv ∧ ∃ t, step (offering 0x02000061) = .next t :=
  ⟨by decide, _, rfl⟩
theorem witness_ResetStateWaitsForInit : State.reset.phase = .idle ∧ (∀ outLen, Instr.squeeze ≠ .init outLen) ∧
    (99 : Byte).toNat ≤ 99 := ⟨rfl, fun _ => nofun, by decide⟩
theorem witness_ResetEdgeEndsTheContext : (pending rstEdge).edge.driver = .owner ∧ (pending rstEdge).edge.rst = true := by decide
theorem witness_UnspecifiedValuesAreNeverObserved :
    SameButUnspecified State.reset { State.reset with L := 3, rate := 5, position := 7, freeCount := 9 } :=
  ⟨rfl, fun h => absurd rfl h⟩
theorem witness_StepRunsTheDecodedCommand : (offering 0x02000061).edge.driver = .owner ∧
    (offering 0x02000061).edge.rst = false ∧ (offering 0x02000061).edge.cmdValid = true ∧
    (offering 0x02000061).rsp = none ∧ decode (offering 0x02000061).edge.cmdData = .ok (.absorb 0x61) := by decide
theorem witness_StepAnswersAnIllegalWord : (offering 0x03000080).edge.driver = .owner ∧
    (offering 0x03000080).edge.rst = false ∧ (offering 0x03000080).edge.cmdValid = true ∧
    (offering 0x03000080).rsp = none ∧ decode (offering 0x03000080).edge.cmdData = .error .operandNotZero := by decide
theorem witness_ResponseIsTransferredOnce : (pending takeEdge).edge.driver = .owner ∧ (pending takeEdge).edge.rst = false ∧
    (pending takeEdge).edge.rspReady = true ∧ (pending takeEdge).rsp = some 0x0000 := by decide
theorem witness_UntakenResponseHoldsTheBlock : (pending (sendEdge 0)).edge.driver = .owner ∧
    (pending (sendEdge 0)).edge.rst = false ∧ (pending (sendEdge 0)).edge.rspReady = false ∧
    (pending (sendEdge 0)).rsp = some 0x0000 := by decide
theorem witness_UntakenResponseHoldsTheBlock_lifted : ∃ t, (pending takeEdge).rsp = some 0x0000 ∧
    step (pending takeEdge) = .next t ∧ t.rsp ≠ some 0x0000 := ⟨_, rfl, rfl, by decide⟩
theorem witness_IdleHostLeavesTheState : State.reset.edge.driver = .owner ∧ State.reset.edge.rst = false ∧
    State.reset.edge.cmdValid = false ∧ State.reset.edge.rspReady = false := by decide
theorem witness_BlockAlwaysAnswers : (offering 0).edge.driver = .owner ∧
    (pending { idleEdge with driver := .secondHost }).edge.driver = .secondHost := by decide
theorem witness_OneResponsePerCommandInOrder : State.reset.rsp = none ∧
    ([0x01000020, 0x02000061] : List CommandWord) = [0x01000020] ++ 0x02000061 :: [] := ⟨rfl, rfl⟩
theorem witness_EdgesCarryOutTheTransactions : ({ State.reset with host := hostProgram [0x01000020] ++ [rstEdge] } : State).rsp = none ∧
    ({ State.reset with host := hostProgram [0x01000020] ++ [rstEdge] } : State).host = hostProgram [0x01000020] ++ [rstEdge] :=
  ⟨rfl, rfl⟩
theorem witness_AbsorbedBytesAreCounted : (99 : Byte).toNat ≤ 99 ∧ (0 : Byte).toNat ≤ 99 := by decide
theorem witness_SqueezedBytesAreCounted : (ctx .squeezing 99 0).phase = .squeezing ∧ (ctx .squeezing 99 0).Inv ∧
    (ctx .squeezing 99 0).position = 0 ∧ 1 ≤ 1 := by decide
theorem witness_DigestIsTheSpongeFunction : (99 : Byte).toNat ≤ 99 ∧ (98 : Byte).toNat < (99 : Byte).toNat := by decide
theorem witness_XofStreamIsTheSpongeFunction : (0 : Byte).toNat ≤ 99 := by decide
theorem witness_FacadeCallsAreAllOrNothing : ((ctx .absorbing 16 0).Inv ∧ (ctx .absorbing 16 0).rsp = none ∧
    (ctx .absorbing 16 0).phase = .absorbing ∧ (ctx .absorbing 16 0).phase ≠ .squeezing) ∧
    (ctx .squeezing 16 168).Inv ∧ (ctx .squeezing 16 168).rsp = none ∧
    (ctx .squeezing 16 168).phase = .squeezing ∧ (ctx .squeezing 16 168).phase ≠ .absorbing := by decide
theorem witness_RefusedWordLeavesNoTrace : ∃ t, (ctx .squeezing 16 0).rsp = none ∧
    transact 0x02000041 (ctx .squeezing 16 0) = .next t ∧
    ∃ r, t.taken = (ctx .squeezing 16 0).taken ++ [r] ∧ responseStatus r ≠ 0 := ⟨_, rfl, rfl, 0x0100, by decide⟩
theorem witness_CommandLinesAssemble : 255 ≤ 255 ∧ 255 < 256 := by decide
theorem witness_PseudoInstructionsExpand : 512 ∉ [128, 256] ∧ (∀ c ∈ [0x61, 127], c < 128) ∧ ∃ c ∈ [0x61, 128], 128 ≤ c := by decide
theorem witness_DigestAllReadsTheLastInit : (∀ line ∈ [AsmLine.absorb 0x61, .finalSha3], line.initOperand = none) ∧
    (assemble ([.init 48] ++ .init 28 :: [.absorb 0x61, .finalSha3])).toOption =
      some [.init 48, .init 28, .absorb 0x61, .finalSha3] := by decide
theorem witness_DigestAllReadsTheLastInit_none : (∀ line ∈ [AsmLine.absorb 0x61], line.initOperand = none) ∧
    (assemble [.absorb 0x61]).toOption = some [.absorb 0x61] := by decide
theorem witness_OneShotCallsExpand : (64 ∈ [28, 32, 48, 64] ∧ 29 ∉ [28, 32, 48, 64]) ∧
    256 ∈ [128, 256] ∧ 512 ∉ [128, 256] := by decide
theorem witness_FacadeFlagsFollowThePhase : State.reset.rsp = none ∧ ((16 : Byte) = 16 ∨ (16 : Byte) = 32) := by decide

end Sys2Proof.Tests
end

section
/-! The scope's notation (spec/00_scope.md): the accesses `MemRead` and `MemWrite` of R14, and `ROTL64` and `BSWAP64` of
R16. -/

namespace Sys2Proof.Machine

/-! ### MemRead and MemWrite (R14) -/

theorem memAccess_iff (j n : Nat) : memAccess j n = true ↔ (n = 1 ∨ n = 8) ∧ j + n ≤ 200 := by
  simp [memAccess]

/-- A write of `n` bytes from `j` leaves every byte outside `j..j+n-1`. -/
theorem byteAt_setBytesValue_outside (A : Lanes) (j n v m : Nat) (h : m < j ∨ j + n ≤ m) :
    byteAt (setBytesValue A j n v) m = byteAt A m := by
  induction n generalizing A j v with
  | zero => rfl
  | succ n ih =>
    have hm : m ≠ j := by omega
    calc byteAt (setBytesValue A j (n + 1) v) m
        = byteAt (setByteAt A j (BitVec.ofNat 8 v)) m := ih _ _ _ (by omega)
      _ = byteAt A m := byteAt_setByteAt_other _ _ _ _ hm

/-- The bytes written with `v` read back as `v`, cut to their width. The first byte, `v mod 256`, stays as it is while the
rest is written; the rest holds `v div 256`. -/
theorem bytesValue_setBytesValue (A : Lanes) (j n v : Nat) (h : j + n ≤ 200) :
    bytesValue (setBytesValue A j n v) j n = v % 256 ^ n := by
  induction n generalizing A j v with
  | zero => simp [bytesValue, Nat.mod_one]
  | succ n ih =>
    have first : byteAt (setBytesValue A j (n + 1) v) j = BitVec.ofNat 8 v :=
      (byteAt_setBytesValue_outside _ (j + 1) n (v / 256) j (by omega)).trans
        (byteAt_setByteAt_same _ _ _ (by omega))
    have rest : bytesValue (setBytesValue A j (n + 1) v) (j + 1) n = v / 256 % 256 ^ n :=
      ih _ _ _ (by omega)
    calc bytesValue (setBytesValue A j (n + 1) v) j (n + 1)
        = v % 256 + 256 * (v / 256 % 256 ^ n) := by simp [bytesValue, first, rest]
      _ = v % 256 ^ (n + 1) := by rw [Nat.pow_succ', Nat.mod_mul]

/-- Settles O10: the access is defined exactly where `memAccess` holds, and there the two lemmas on written bytes apply. -/
theorem memReadAfterMemWrite : Obligations.MemReadAfterMemWrite := by
  intro A j n v
  constructor
  · intro hn hj
    have access : memAccess j n = true := (memAccess_iff j n).mpr ⟨hn, hj⟩
    refine ⟨setBytesValue A j n v, by simp [memWrite, access], ?_, ?_⟩
    · simp [memRead, access, bytesValue_setBytesValue _ _ _ _ hj]
    · exact byteAt_setBytesValue_outside A j n v
  · intro h
    have noAccess : ¬ memAccess j n = true := mt (memAccess_iff j n).mp h
    simp [memRead, memWrite, noAccess]

/-! ### ROTL64 and BSWAP64 (R16) -/

@[simp] theorem rotl64_zero (v : Lane) : rotl64 v 0 = v := rfl

/-- The rotation of R16 is the library's. -/
theorem rotl64_eq_rotateLeft (v : Lane) (n : Nat) (hn : n < 64) : rotl64 v n = v.rotateLeft n := by
  by_cases h : n = 0
  · simp [h, BitVec.rotateLeft, BitVec.rotateLeftAux, BitVec.ushiftRight_eq_zero]
  · simp [rotl64, h, BitVec.rotateLeft, BitVec.rotateLeftAux, Nat.mod_eq_of_lt hn]

/-- Bit `z` of the input moves to bit `(z + n) mod 64`: without a wrap it comes from the low part of the rotation, with one
from the high part. -/
theorem getLsbD_rotl64_add_mod (v : Lane) (n z : Nat) (hn : n < 64) (hz : z < 64) :
    (rotl64 v n).getLsbD ((z + n) % 64) = v.getLsbD z := by
  rw [rotl64_eq_rotateLeft v n hn, BitVec.getLsbD_rotateLeft, Nat.mod_eq_of_lt hn]
  by_cases wrap : z + n < 64
  · have stays : (z + n) % 64 = z + n := Nat.mod_eq_of_lt wrap
    simp [stays, wrap]
  · have wraps : (z + n) % 64 = z + n - 64 := by omega
    have inLow : z + n - 64 < n := by omega
    have source : 64 - n + (z + n - 64) = z := by omega
    simp [wraps, inLow, source]

/-- The shift formula of R16. -/
theorem toNat_rotl64 (v : Lane) (n : Nat) (hn : 0 < n) :
    (rotl64 v n).toNat = (v.toNat * 2 ^ n ||| v.toNat / 2 ^ (64 - n)) % 2 ^ 64 := by
  have right : v.toNat / 2 ^ (64 - n) < 2 ^ 64 := (Nat.div_le_self _ _).trans_lt v.isLt
  rw [rotl64, if_neg hn.ne', BitVec.toNat_or, BitVec.toNat_shiftLeft, BitVec.toNat_ushiftRight,
    Nat.shiftLeft_eq, Nat.shiftRight_eq_div_pow, Nat.or_mod_two_pow, Nat.mod_eq_of_lt right]

/-- Settles O11, from the law of each formula. -/
theorem rotationAndByteSwap : Obligations.RotationAndByteSwap := by
  refine ⟨getLsbD_rotl64_add_mod, fun v n hn _ => toNat_rotl64 v n hn, rotl64_zero, fun v k hk => ?_⟩
  calc laneByte (bswap64 v) (7 - k)
      = laneByte v (7 - (7 - k)) := laneByte_bswap64 v (7 - k) (by omega)
    _ = laneByte v k := by rw [Nat.sub_sub_self (by omega)]

end Sys2Proof.Machine
end

section
/-! The two views of the 1600-bit register (spec/10_state.md section 1, R21, R23, R24) and the bits of the round constants
(section 4, R32). -/
namespace Sys2Proof.Machine

/-! ### A lane and its bytes (R21) -/

/-- Byte `8i + k` is byte `k` of lane `i`. -/
theorem byteAt_laneAt (A : Lanes) (i : Nat) {k : Nat} (hk : k < 8) :
    byteAt A (8 * i + k) = laneByte (laneAt A i) k := by
  have lane : (8 * i + k) / 8 = i := by omega
  have place : (8 * i + k) % 8 = k := by omega
  rw [byteAt, lane, place]

theorem toNat_laneByte (v : Lane) (k : Nat) : (laneByte v k).toNat = v.toNat / 2 ^ (8 * k) % 2 ^ 8 := by
  simp [laneByte, Nat.shiftRight_eq_div_pow]

/-- The lowest `n` bytes of a lane, each at its place, sum to its lowest `8n` bits. -/
theorem sum_laneByte (v : Lane) (n : Nat) :
    ∑ m ∈ Finset.range n, (laneByte v m).toNat * 2 ^ (8 * m) = v.toNat % 2 ^ (8 * n) := by
  induction n with
  | zero => simp [Nat.mod_one]
  | succ n ih =>
    rw [Finset.sum_range_succ, ih, toNat_laneByte, Nat.mul_succ, Nat.pow_add, Nat.mod_mul, Nat.mul_comm (2 ^ (8 * n))]

/-- The `n` bytes from `j` as a sum, each byte at its place. -/
theorem bytesValue_eq_sum (A : Lanes) (j n : Nat) :
    bytesValue A j n = ∑ m ∈ Finset.range n, (byteAt A (j + m)).toNat * 2 ^ (8 * m) := by
  induction n generalizing j with
  | zero => rfl
  | succ n ih =>
    have shift (m : Nat) : (byteAt A (j + (m + 1))).toNat * 2 ^ (8 * (m + 1)) =
        256 * ((byteAt A (j + 1 + m)).toNat * 2 ^ (8 * m)) := by
      rw [Nat.mul_succ, Nat.pow_add, Nat.add_right_comm, Nat.add_assoc]
      ring
    rw [bytesValue, ih, Finset.sum_range_succ', Finset.sum_congr rfl fun m _ => shift m, ← Finset.mul_sum]
    simp [Nat.add_comm]

/-- A lane is the little-endian number of its eight bytes. -/
theorem toNat_laneAt (A : Lanes) (i : Nat) :
    (laneAt A i).toNat = ∑ m ∈ Finset.range 8, (byteAt A (8 * i + m)).toNat * 2 ^ (8 * m) := by
  calc (laneAt A i).toNat
      = (laneAt A i).toNat % 2 ^ (8 * 8) := (Nat.mod_eq_of_lt (laneAt A i).isLt).symm
    _ = ∑ m ∈ Finset.range 8, (laneByte (laneAt A i) m).toNat * 2 ^ (8 * m) := (sum_laneByte _ 8).symm
    _ = _ := Finset.sum_congr rfl fun m hm => by rw [byteAt_laneAt A i (Finset.mem_range.1 hm)]

/-- Settles O7: the byte is a field of its lane, and both the read of eight bytes and the lane are the sum of the bytes. -/
theorem byteAndLaneViewsAgree : Obligations.ByteAndLaneViewsAgree := by
  intro A i k hi hk
  have access : memAccess (8 * i) 8 = true := (memAccess_iff _ _).2 ⟨.inr rfl, by omega⟩
  refine ⟨(byteAt_laneAt A i hk).symm, ?_, toNat_laneAt A i⟩
  rw [memRead, if_pos access, bytesValue_eq_sum, toNat_laneAt]

/-- Settles O8: bit `z` of the lane is bit `z mod 8` of its byte `z div 8`. -/
theorem laneBitIsByteBit : Obligations.LaneBitIsByteBit := by
  intro A i z _ hz
  rw [byteAt_laneAt A i (by omega), getLsbD_laneByte, Nat.div_add_mod]
  simp [Nat.mod_lt]

/-! ### Writes (R24) -/

/-- A byte write leaves the other lanes. -/
theorem laneAt_setByteAt_other (A : Lanes) (j : Nat) (b : Byte) (i : Nat) (h : i ≠ j / 8) :
    laneAt (setByteAt A j b) i = laneAt A i :=
  laneAt_setLaneAt_other _ _ _ _ h

/-- A lane write leaves the bytes of the other lanes. -/
theorem byteAt_setLaneAt_other (A : Lanes) (i : Nat) (v : Lane) (j : Nat) (h : j / 8 ≠ i) :
    byteAt (setLaneAt A i v) j = byteAt A j := by
  rw [byteAt, laneAt_setLaneAt_other _ _ _ _ h, byteAt]

/-- A lane write is seen in the lane's bytes. -/
theorem byteAt_setLaneAt_same (A : Lanes) {i k : Nat} (v : Lane) (hi : i < 25) (hk : k < 8) :
    byteAt (setLaneAt A i v) (8 * i + k) = laneByte v k := by
  rw [byteAt_laneAt _ _ hk, laneAt_setLaneAt_same _ _ _ hi]

/-- Settles O9, from the laws of a byte write and of a lane write. -/
theorem writesAreSeenThroughBothViews : Obligations.WritesAreSeenThroughBothViews := by
  constructor
  · intro A j b hj
    have written := byteAt_setByteAt_same A j b hj
    exact ⟨written, fun m => byteAt_setByteAt_other A j m b, written, laneAt_setByteAt_other A j b⟩
  · intro A i v hi
    exact ⟨laneAt_setLaneAt_same A i v hi, fun k hk => byteAt_setLaneAt_same A v hi hk, byteAt_setLaneAt_other A i v⟩

/-! ### The round constants (R32) -/

/-- The lane with bits 0, 1, 3, 7, 15, 31 and 63 set. -/
def roundConstantMask : Lane := 0x800000008000808B

theorem mem_of_getLsbD_roundConstantMask :
    ∀ z < 64, roundConstantMask.getLsbD z = true → z ∈ [0, 1, 3, 7, 15, 31, 63] := by decide

theorem RC_and_roundConstantMask : ∀ r : Fin 24, RC[r] &&& roundConstantMask = RC[r] := by decide

/-- Settles O17: every constant lies under the mask of the seven bits. -/
theorem roundConstantBits : Obligations.RoundConstantBits := by
  intro r z isSet
  rw [← RC_and_roundConstantMask r, BitVec.getLsbD_and, Bool.and_eq_true] at isSet
  have hz : z < 64 := BitVec.lt_of_getLsbD isSet.1
  exact mem_of_getLsbD_roundConstantMask z hz isSet.2

end Sys2Proof.Machine
end

section
/-! What every step keeps (spec/10_state.md section 2): the invariant of the context registers (R29), the registers `INIT` alone
writes (R25, R26), and the capacity bytes, which only the permutation changes (R30). -/
namespace Sys2Proof.Machine

/-- The state a command leaves, by what it does to the registers: it answers only (an error, or `DIGEST_READ`), or it creates,
absorbs into, finalizes or squeezes a context (R141 to R146). -/
theorem exec_next_cases {i : Instr} {s t : State} (h : exec i s = .next t) :
    (∃ r, t = s.offer r) ∨
    (∃ outLen r, i = .init outLen ∧ outLen.toNat ≤ 99 ∧ t = (s.created outLen).offer r) ∨
    (∃ data r, s.phase = .absorbing ∧ t = (s.xorByte s.cursor data).advance.closeBlock.offer r) ∨
    (∃ suffix p r, s.phase = .absorbing ∧ (p = .digest ∨ p = .squeezing) ∧ t = (s.finalize suffix p).offer r) ∨
    (∃ r, s.phase = .squeezing ∧ t = s.openBlock.advance.offer r) := by
  obtain ⟨_, _, e⟩ | ⟨outLen, hi, hL, e⟩ | ⟨data, _, hp, e⟩ | ⟨_, hp, e⟩ | ⟨_, hp, e⟩ | ⟨_, hp, e⟩ | ⟨_, _, _, _, e⟩ :=
      exec_cases i s <;>
    obtain rfl := Host.Outcome.next.inj (h.symm.trans e)
  · exact .inl ⟨_, rfl⟩
  · exact .inr (.inl ⟨outLen, _, hi, hL, rfl⟩)
  · exact .inr (.inr (.inl ⟨data, _, hp, rfl⟩))
  · exact .inr (.inr (.inr (.inl ⟨_, _, _, hp, .inl rfl, rfl⟩)))
  · exact .inr (.inr (.inr (.inl ⟨_, _, _, hp, .inr rfl, rfl⟩)))
  · exact .inr (.inr (.inr (.inr ⟨_, hp, rfl⟩)))
  · exact .inl ⟨_, rfl⟩

/-! ### The invariant, phase by phase (R29) -/

theorem State.inv_of_idle {s : State} (hp : s.phase = .idle) : s.Inv := by
  simp [State.Inv, hp]

theorem State.inv_iff_of_absorbing {s : State} (hp : s.phase = .absorbing) :
    s.Inv ↔ s.ContextOk ∧ s.position.toNat < s.rate.toNat := by
  simp [State.Inv, hp]

theorem State.inv_iff_of_squeezing {s : State} (hp : s.phase = .squeezing) :
    s.Inv ↔ s.ContextOk ∧ s.position.toNat ≤ s.rate.toNat := by
  simp [State.Inv, hp]

theorem State.inv_iff_of_digest {s : State} (hp : s.phase = .digest) :
    s.Inv ↔ s.ContextOk ∧ s.position = 0 := by
  simp [State.Inv, hp]

/-! ### The updates keep it -/

@[simp] theorem State.inv_offer (s : State) (r : ResponseWord) : (s.offer r).Inv ↔ s.Inv := Iff.rfl

@[simp] theorem State.inv_passEdge (s : State) : s.passEdge.Inv ↔ s.Inv := Iff.rfl

@[simp] theorem State.inv_takeResponse (s : State) : s.takeResponse.Inv ↔ s.Inv := by
  unfold State.takeResponse
  split <;> exact Iff.rfl

/-- The context of a legal length: its rate is at least 2, so position 0 lies in the block. -/
theorem State.inv_created (s : State) {outLen : Byte} (hL : outLen.toNat ≤ 99) : (s.created outLen).Inv := by
  have hrate := toNat_rateOf outLen hL
  refine (State.inv_iff_of_absorbing rfl).2 ⟨⟨hL, hrate⟩, ?_⟩
  show 0 < (rateOf outLen).toNat
  omega

/-- Absorbing a byte: a block that fills restarts at position 0, any other leaves the advanced position below the rate. -/
theorem State.inv_absorbed {s : State} (data : Byte) (hp : s.phase = .absorbing) (hs : s.Inv) :
    (s.xorByte s.cursor data).advance.closeBlock.Inv := by
  obtain ⟨context, hpos⟩ := (State.inv_iff_of_absorbing hp).1 hs
  obtain ⟨hL, hrate⟩ := context
  have noWrap : s.position.toNat < 255 := by omega
  rw [State.closeBlock_absorbed s data noWrap]
  split
  next full =>
    refine (State.inv_iff_of_absorbing (by simpa using hp)).2 ⟨⟨hL, hrate⟩, ?_⟩
    show 0 < s.rate.toNat
    omega
  next notFull =>
    refine (State.inv_iff_of_absorbing (by simpa using hp)).2 ⟨⟨hL, hrate⟩, ?_⟩
    rw [State.advance_toNat (s.xorByte s.cursor data) noWrap]
    show s.position.toNat + 1 < s.rate.toNat
    omega

/-- A finalize keeps `L` and the rate and sets position 0, which suits both phases it can enter. -/
theorem State.inv_finalize {s : State} (suffix : Byte) {p : Phase} (hp : s.phase = .absorbing)
    (hp' : p = .digest ∨ p = .squeezing) (hs : s.Inv) : (s.finalize suffix p).Inv := by
  obtain ⟨context, -⟩ := (State.inv_iff_of_absorbing hp).1 hs
  obtain rfl | rfl := hp'
  · exact (State.inv_iff_of_digest rfl).2 ⟨context, rfl⟩
  · exact (State.inv_iff_of_squeezing rfl).2 ⟨context, Nat.zero_le _⟩

/-- Squeezing a byte: a used-up block restarts and is left at position 1, an open one is left at most at the rate. -/
theorem State.inv_squeezed {s : State} (hp : s.phase = .squeezing) (hs : s.Inv) : s.openBlock.advance.Inv := by
  obtain ⟨context, hpos⟩ := (State.inv_iff_of_squeezing hp).1 hs
  obtain ⟨hL, hrate⟩ := context
  by_cases used : s.rate ≤ s.position
  · rw [State.openBlock_used s used]
    refine (State.inv_iff_of_squeezing (by simpa using hp)).2 ⟨⟨hL, hrate⟩, ?_⟩
    show 1 ≤ s.rate.toNat
    omega
  · have below : s.position.toNat < s.rate.toNat := BitVec.not_le.1 used
    rw [State.openBlock_open s used]
    refine (State.inv_iff_of_squeezing (by simpa using hp)).2 ⟨⟨hL, hrate⟩, ?_⟩
    rw [State.advance_toNat s (by omega)]
    exact below

theorem exec_inv {i : Instr} {s t : State} (hs : s.Inv) (h : exec i s = .next t) : t.Inv := by
  obtain ⟨r, rfl⟩ | ⟨outLen, r, -, hL, rfl⟩ | ⟨data, r, hp, rfl⟩ | ⟨suffix, p, r, hp, hp', rfl⟩ | ⟨r, hp, rfl⟩ :=
      exec_next_cases h <;>
    rw [State.inv_offer]
  · exact hs
  · exact s.inv_created hL
  · exact State.inv_absorbed data hp hs
  · exact State.inv_finalize suffix hp hp' hs
  · exact State.inv_squeezed hp hs

theorem runWord_inv {w : CommandWord} {s t : State} (hs : s.Inv) (h : runWord w s = .next t) : t.Inv := by
  obtain ⟨i, -, e⟩ | ⟨_, -, e⟩ := runWord_cases w s
  · exact exec_inv hs (e.symm.trans h)
  · obtain rfl := Host.Outcome.next.inj (h.symm.trans e)
    exact hs

/-- Settles O33, by the cases of a step: a second host is refused, a reset edge enters `IDLE`, where there is no invariant, a
command's case is `runWord_inv`, and the other edges leave the context registers as they are. -/
theorem everyStepKeepsTheInvariant : Obligations.EveryStepKeepsTheInvariant := by
  intro s t hs h
  obtain ⟨_, e⟩ | ⟨_, _, e⟩ | ⟨_, _, _, _, e⟩ | ⟨_, _, _, _, e⟩ | ⟨_, _, _, _, e⟩ := step_cases s <;> rw [e] at h
  · cases h
  · obtain rfl := Host.Outcome.next.inj h
    exact State.inv_of_idle rfl
  · exact runWord_inv (s.inv_passEdge.2 hs) h
  · obtain rfl := Host.Outcome.next.inj h
    simpa using hs
  · obtain rfl := Host.Outcome.next.inj h
    exact hs

/-- Settles O32: reset is `IDLE`. -/
theorem invariantHoldsAtReset : Obligations.InvariantHoldsAtReset :=
  State.inv_of_idle rfl

/-! ### What only `INIT` writes (R25, R26) -/

/-- Settles O30, by the cases of what a command leaves: only `INIT` touches the two registers, and it writes the rate of a
legal length. -/
theorem onlyInitWritesRateAndLength : Obligations.OnlyInitWritesRateAndLength := by
  intro i s t h
  obtain ⟨r, rfl⟩ | ⟨outLen, r, hi, hL, rfl⟩ | ⟨data, r, -, rfl⟩ | ⟨suffix, p, r, -, -, rfl⟩ | ⟨r, -, rfl⟩ :=
    exec_next_cases h
  · exact .inl ⟨rfl, rfl⟩
  · have hrate := toNat_rateOf outLen hL
    refine .inr ⟨outLen, hi, rfl, hL, hrate, ?_⟩
    show (rateOf outLen).toNat % 2 = 0 ∧ 2 ≤ (rateOf outLen).toNat ∧ (rateOf outLen).toNat ≤ 200
    omega
  · exact .inl ⟨by simp, by simp⟩
  · exact .inl ⟨rfl, rfl⟩
  · exact .inl ⟨by simp, by simp⟩

/-! ### The capacity bytes (R30) -/

/-- A byte XORed in below address `c` leaves every byte from `c` on. -/
theorem byteAt_xorByteAt_above (A : Lanes) {a c : Nat} (b : Byte) (h : a < c) :
    ∀ j, c ≤ j → byteAt (xorByteAt A a b) j = byteAt A j :=
  fun j hj => byteAt_xorByteAt_other A a j b (by omega)

/-- Settles O31, by the cases of what a command leaves. Both addresses a command XORs at, the cursor and the padding address,
lie below the rate under the invariant. -/
theorem capacityChangesByPermutationOnly : Obligations.CapacityChangesByPermutationOnly := by
  intro i s t hs notInit h
  obtain ⟨r, rfl⟩ | ⟨outLen, r, hi, -, -⟩ | ⟨data, r, hp, rfl⟩ | ⟨suffix, p, r, hp, -, rfl⟩ | ⟨r, hp, rfl⟩ :=
    exec_next_cases h
  · exact .inl fun _ _ => rfl
  · exact absurd hi (notInit outLen)
  · obtain ⟨⟨hL, hrate⟩, hpos⟩ := (State.inv_iff_of_absorbing hp).1 hs
    have kept := byteAt_xorByteAt_above s.lanes data (show s.cursor < s.rate.toNat from hpos)
    rw [State.closeBlock_absorbed s data (by omega)]
    split
    · exact .inr ⟨_, by simp, kept⟩
    · exact .inl fun j hj => by simpa [State.byte] using kept j hj
  · obtain ⟨⟨hL, hrate⟩, hpos⟩ := (State.inv_iff_of_absorbing hp).1 hs
    have padBelow : s.padAddress < s.rate.toNat := by
      show s.rate.toNat - 1 < s.rate.toNat
      omega
    refine .inr ⟨_, s.lanes_finalize suffix p, fun j hj => ?_⟩
    rw [byteAt_xorByteAt_above _ _ padBelow j hj]
    exact byteAt_xorByteAt_above s.lanes suffix hpos j hj
  · by_cases used : s.rate ≤ s.position
    · rw [State.openBlock_used s used]
      exact .inr ⟨s.lanes, by simp, fun _ _ => rfl⟩
    · rw [State.openBlock_open s used]
      exact .inl fun _ _ => rfl

end Sys2Proof.Machine
end

section
/-! Reset (spec/10_state.md section 5, R38; spec/70_reset_and_hazards.md R202): until `INIT` every command is refused, so what
reset leaves unspecified is never observed. -/
namespace Sys2Proof.Machine

/-- `INVALID_STATE` is the word `0x0100` (R71, R72). -/
theorem responseWord_invalidState : responseWord .invalidState 0x00 = 0x0100 := rfl

/-- In `IDLE` every command but `INIT` is refused and changes nothing else (R202). -/
theorem exec_of_idle {i : Instr} {s : State} (hp : s.phase = .idle) (notInit : ∀ outLen, i ≠ .init outLen) :
    exec i s = .next (s.offer 0x0100) := by
  rw [← responseWord_invalidState]
  cases i with
  | init outLen => exact absurd rfl (notInit outLen)
  | absorb data => simp [exec, execAbsorb, hp]
  | finalSha3 => simp [exec, execFinalSha3, hp]
  | finalShake => simp [exec, execFinalShake, hp]
  | squeeze => simp [exec, execSqueeze, hp]
  | digestRead index => simp [exec, execDigestRead, hp]

/-- Settles O34, from the two lemmas on what `IDLE` answers and on a legal `INIT`. -/
theorem resetStateWaitsForInit : Obligations.ResetStateWaitsForInit :=
  ⟨rfl, rfl, fun _ _ hp notInit => exec_of_idle hp notInit,
    fun outLen hL => ⟨_, execInit_ok outLen State.reset hL, rfl, rfl⟩⟩

/-! ### States that differ in what reset leaves unspecified (R38) -/

/-- The relation, field by field. -/
theorem sameButUnspecified_iff {s t : State} :
    SameButUnspecified s t ↔
      (t.phase = s.phase ∧ t.laneStorage = s.laneStorage ∧ t.rsp = s.rsp ∧ t.host = s.host ∧ t.taken = s.taken) ∧
      (s.phase ≠ .idle → s.L = t.L ∧ s.rate = t.rate ∧ s.position = t.position ∧ s.words = t.words) := by
  cases s
  cases t
  simp [SameButUnspecified]

namespace SameButUnspecified
variable {s t : State} (h : SameButUnspecified s t)
include h

/-- The ports of related states are the same, so the same transfer happens. -/
theorem portEvent_eq : t.portEvent = s.portEvent := by
  obtain ⟨⟨-, -, rsp, host, -⟩, -⟩ := sameButUnspecified_iff.1 h
  simp [State.portEvent, State.cmdReady, State.rspValid, State.edge, rsp, host]

theorem offer (r : ResponseWord) : SameButUnspecified (s.offer r) (t.offer r) := by
  obtain ⟨⟨phase, storage, -, host, taken⟩, context⟩ := sameButUnspecified_iff.1 h
  exact sameButUnspecified_iff.2 ⟨⟨phase, storage, rfl, host, taken⟩, context⟩

theorem passEdge : SameButUnspecified s.passEdge t.passEdge := by
  obtain ⟨⟨phase, storage, rsp, host, taken⟩, context⟩ := sameButUnspecified_iff.1 h
  exact sameButUnspecified_iff.2 ⟨⟨phase, storage, rsp, congrArg List.tail host, taken⟩, context⟩

theorem takeResponse : SameButUnspecified s.takeResponse t.takeResponse := by
  obtain ⟨⟨phase, storage, rsp, host, taken⟩, context⟩ := sameButUnspecified_iff.1 h
  cases pending : s.rsp with
  | none => rwa [State.takeResponse_none s pending, State.takeResponse_none t (rsp.trans pending)]
  | some r =>
    rw [State.takeResponse_some s r pending, State.takeResponse_some t r (rsp.trans pending)]
    exact sameButUnspecified_iff.2 ⟨⟨phase, storage, rfl, host, by rw [taken]⟩, context⟩

/-- After a reset edge the free values differ, in `IDLE`. -/
theorem resetEdge : SameButUnspecified s.resetEdge t.resetEdge := by
  obtain ⟨⟨-, storage, -, host, taken⟩, -⟩ := sameButUnspecified_iff.1 h
  exact sameButUnspecified_iff.2 ⟨⟨rfl, storage, rfl, host, taken⟩, fun notIdle => absurd rfl notIdle⟩

/-- `INIT` writes every register that could differ (R141). -/
theorem created (outLen : Byte) : SameButUnspecified (s.created outLen) (t.created outLen) := by
  obtain ⟨⟨-, storage, rsp, host, taken⟩, -⟩ := sameButUnspecified_iff.1 h
  exact sameButUnspecified_iff.2
    ⟨⟨rfl, storage, rsp, host, taken⟩, fun _ => ⟨rfl, rfl, rfl, by simp [State.created, storage]⟩⟩

end SameButUnspecified

/-! ### Within a context: only the count of free values differs, and no command reads it -/

/-- The state with another count of free values. -/
def State.setFreeCount (s : State) (n : Nat) : State := { s with freeCount := n }

@[simp] theorem State.setFreeCount_phase (s : State) (n : Nat) : (s.setFreeCount n).phase = s.phase := rfl

/-- Outside `IDLE` related states differ in the count alone. -/
theorem SameButUnspecified.eq_setFreeCount {s t : State} (h : SameButUnspecified s t) (hp : s.phase ≠ .idle) :
    t = s.setFreeCount t.freeCount := by
  obtain ⟨e, context⟩ := h
  obtain ⟨hL, hrate, hposition, hwords⟩ := context hp
  rw [e, ← hL, ← hrate, ← hposition, ← hwords]
  rfl

theorem sameButUnspecified_setFreeCount (s : State) (n : Nat) : SameButUnspecified s (s.setFreeCount n) :=
  sameButUnspecified_iff.2 ⟨⟨rfl, rfl, rfl, rfl, rfl⟩, fun _ => ⟨rfl, rfl, rfl, rfl⟩⟩

theorem State.closeBlock_setFreeCount (s : State) (n : Nat) :
    (s.setFreeCount n).closeBlock = s.closeBlock.setFreeCount n := by
  by_cases full : s.position = s.rate
  · rw [State.closeBlock_full s full, State.closeBlock_full (s.setFreeCount n) full]
    rfl
  · rw [State.closeBlock_open s full, State.closeBlock_open (s.setFreeCount n) full]

theorem State.openBlock_setFreeCount (s : State) (n : Nat) :
    (s.setFreeCount n).openBlock = s.openBlock.setFreeCount n := by
  by_cases used : s.rate ≤ s.position
  · rw [State.openBlock_used s used, State.openBlock_used (s.setFreeCount n) used]
    rfl
  · rw [State.openBlock_open s used, State.openBlock_open (s.setFreeCount n) used]

/-- A command commutes with a change of the count. -/
theorem exec_setFreeCount (i : Instr) (s : State) (n : Nat) :
    ∃ u, exec i s = .next u ∧ exec i (s.setFreeCount n) = .next (u.setFreeCount n) := by
  cases i with
  | init outLen =>
    by_cases hL : outLen.toNat ≤ 99
    · exact ⟨_, execInit_ok outLen s hL, execInit_ok outLen (s.setFreeCount n) hL⟩
    · have hL' : 99 < outLen.toNat := by omega
      exact ⟨_, execInit_misuse outLen s hL', execInit_misuse outLen (s.setFreeCount n) hL'⟩
  | absorb data =>
    by_cases hp : s.phase = .absorbing
    · refine ⟨_, execAbsorb_ok data s hp, (execAbsorb_ok data (s.setFreeCount n) hp).trans ?_⟩
      exact congrArg (Host.Outcome.next <| State.offer · _)
        (State.closeBlock_setFreeCount (s.xorByte s.cursor data).advance n)
    · exact ⟨_, if_neg hp, if_neg hp⟩
  | finalSha3 =>
    by_cases hp : s.phase = .absorbing
    · exact ⟨_, execFinalSha3_ok s hp, execFinalSha3_ok (s.setFreeCount n) hp⟩
    · exact ⟨_, if_neg hp, if_neg hp⟩
  | finalShake =>
    by_cases hp : s.phase = .absorbing
    · exact ⟨_, execFinalShake_ok s hp, execFinalShake_ok (s.setFreeCount n) hp⟩
    · exact ⟨_, if_neg hp, if_neg hp⟩
  | squeeze =>
    by_cases hp : s.phase = .squeezing
    · refine ⟨_, execSqueeze_ok s hp, (execSqueeze_ok (s.setFreeCount n) hp).trans ?_⟩
      rw [State.openBlock_setFreeCount]
      rfl
    · exact ⟨_, if_neg hp, if_neg hp⟩
  | digestRead index =>
    by_cases hp : s.phase = .digest
    · by_cases hk : index.toNat < s.L.toNat
      · exact ⟨_, execDigestRead_ok index s hp hk, execDigestRead_ok index (s.setFreeCount n) hp hk⟩
      · exact ⟨_, execDigestRead_misuse index s hp hk, execDigestRead_misuse index (s.setFreeCount n) hp hk⟩
    · exact ⟨_, if_neg hp, if_neg hp⟩

/-! ### Commands and steps keep the relation -/

/-- `INIT` answers related states alike: its check reads the operand alone. -/
theorem SameButUnspecified.sameOutcome_execInit {s t : State} (h : SameButUnspecified s t) (outLen : Byte) :
    SameOutcome SameButUnspecified (execInit outLen s) (execInit outLen t) := by
  by_cases hL : outLen.toNat ≤ 99
  · rw [execInit_ok outLen s hL, execInit_ok outLen t hL]
    exact (h.created outLen).offer _
  · have hL' : 99 < outLen.toNat := by omega
    rw [execInit_misuse outLen s hL', execInit_misuse outLen t hL']
    exact h.offer _

/-- A command: in `IDLE` any but `INIT` is refused in both states; in a context the states differ in the count alone. -/
theorem SameButUnspecified.sameOutcome_exec {s t : State} (h : SameButUnspecified s t) (i : Instr) :
    SameOutcome SameButUnspecified (exec i s) (exec i t) := by
  by_cases hp : s.phase = .idle
  · by_cases hi : ∃ outLen, i = .init outLen
    · obtain ⟨outLen, rfl⟩ := hi
      exact h.sameOutcome_execInit outLen
    · have notInit : ∀ outLen, i ≠ .init outLen := not_exists.1 hi
      obtain ⟨⟨phase, -⟩, -⟩ := sameButUnspecified_iff.1 h
      rw [exec_of_idle hp notInit, exec_of_idle (phase.trans hp) notInit]
      exact h.offer _
  · obtain ⟨u, e, e'⟩ := exec_setFreeCount i s t.freeCount
    rw [h.eq_setFreeCount hp, e, e']
    exact sameButUnspecified_setFreeCount u _

theorem SameButUnspecified.sameOutcome_runWord {s t : State} (h : SameButUnspecified s t) (w : CommandWord) :
    SameOutcome SameButUnspecified (runWord w s) (runWord w t) := by
  unfold runWord
  cases decode w with
  | ok i => exact h.sameOutcome_exec i
  | error e => exact h.offer _

/-- Settles O36: related states see the same transfer at their ports, and each transfer keeps the relation. -/
theorem unspecifiedValuesAreNeverObserved : Obligations.UnspecifiedValuesAreNeverObserved := by
  intro s t h
  unfold step
  rw [h.portEvent_eq]
  cases s.portEvent with
  | secondHost => rfl
  | reset => exact h.passEdge.resetEdge
  | command w => exact h.passEdge.sameOutcome_runWord w
  | response => exact h.passEdge.takeResponse
  | wait => exact h.passEdge

end Sys2Proof.Machine
end

section
/-! One response for each word, in command order (spec/20_memory.md section 5, R60; spec/70_reset_and_hazards.md section 2,
R204). -/
namespace Sys2Proof.Machine

/-- A transaction ends with no response pending and has taken the one its word is answered with (R60, R204). -/
theorem transact_takes_answer (w : CommandWord) (s : State) :
    ∃ t v r, transact w s = .next t ∧ t.rsp = none ∧ t.taken = s.taken ++ [r] ∧
      runWord w s = .next v ∧ v.rsp = some r := by
  obtain ⟨v, r, run, answer, -, e⟩ := transact_cases w s
  exact ⟨_, v, r, e, rfl, rfl, run, answer⟩

theorem transactAll_cons {w : CommandWord} {s t : State} (h : transact w s = .next t) (ws : List CommandWord) :
    transactAll (w :: ws) s = transactAll ws t := by
  simp only [transactAll, h]

/-- A sequence of words takes as many responses as it has words. -/
theorem transactAll_takes_answers (ws : List CommandWord) {s : State} (idle : s.rsp = none) :
    ∃ t rs, transactAll ws s = .next t ∧ t.rsp = none ∧ t.taken = s.taken ++ rs ∧ rs.length = ws.length := by
  induction ws generalizing s with
  | nil => exact ⟨s, [], rfl, idle, by simp, rfl⟩
  | cons w ws ih =>
    obtain ⟨u, -, r, e, idleU, takenU, -, -⟩ := transact_takes_answer w s
    obtain ⟨t, rs, run, idleT, takenT, count⟩ := ih idleU
    exact ⟨t, r :: rs, (transactAll_cons e ws).trans run, idleT, by simp [takenT, takenU], by simp [count]⟩

/-- The response at a word's place answers that word: the words before it take the responses before that place, and those
after it take the rest. -/
theorem response_at_place {us vs : List CommandWord} {w : CommandWord} {s t : State} {rs : List ResponseWord}
    (idle : s.rsp = none) (run : transactAll (us ++ w :: vs) s = .next t) (taken : t.taken = s.taken ++ rs) :
    ∃ u v, transactAll us s = .next u ∧ runWord w u = .next v ∧ rs[us.length]? = v.rsp := by
  obtain ⟨u, before, runUs, -, takenU, count⟩ := transactAll_takes_answers us idle
  obtain ⟨x, v, r, e, idleX, takenX, runW, answer⟩ := transact_takes_answer w u
  obtain ⟨y, after, runVs, -, takenY, -⟩ := transactAll_takes_answers vs idleX
  have run' : transactAll (us ++ w :: vs) s = .next y := by
    rw [transactAll_append runUs, transactAll_cons e, runVs]
  obtain rfl := Host.Outcome.next.inj (run.symm.trans run')
  have parts : rs = before ++ r :: after := by
    simpa [takenY, takenX, takenU] using taken.symm
  exact ⟨u, v, runUs, runW, by simp [parts, ← count, answer]⟩

/-- Settles O43: the count is `transactAll_takes_answers`, by induction on the words, and the order is `response_at_place`. -/
theorem oneResponsePerCommandInOrder : Obligations.OneResponsePerCommandInOrder := by
  intro ws s idle
  obtain ⟨t, rs, run, idleT, taken, count⟩ := transactAll_takes_answers ws idle
  refine ⟨t, rs, run, idleT, taken, count, ?_⟩
  rintro us w vs rfl
  exact response_at_place idle run taken

end Sys2Proof.Machine
end

section
/-! The decoder and the encoder (spec/30_encoding.md sections 1 to 4): they undo each other, so the legal words are the
encodings of the commands; which words are illegal; and the word each run is answered with. -/
namespace Sys2Proof.Machine

/-! ### The fields of a command word (R70) -/

theorem toNat_op (w : CommandWord) : w.op.toNat = w.toNat / 2 ^ 24 := by
  rw [CommandWord.op, BitVec.extractLsb'_toNat, Nat.shiftRight_eq_div_pow, Nat.mod_eq_of_lt]
  have := w.isLt
  omega

theorem toNat_res (w : CommandWord) : w.res.toNat = w.toNat / 2 ^ 8 % 2 ^ 16 := by
  rw [CommandWord.res, BitVec.extractLsb'_toNat, Nat.shiftRight_eq_div_pow]

theorem toNat_imm8 (w : CommandWord) : w.imm8.toNat = w.toNat % 2 ^ 8 := by
  rw [CommandWord.imm8, BitVec.extractLsb'_toNat, Nat.shiftRight_zero]

theorem toNat_commandWord (op imm : Byte) : (commandWord op imm).toNat = op.toNat * 2 ^ 24 + imm.toNat := by
  have hop := op.isLt
  have himm := imm.isLt
  have shifted : op.toNat <<< 24 < 2 ^ 32 := by
    rw [Nat.shiftLeft_eq]
    omega
  rw [commandWord, BitVec.toNat_or, BitVec.toNat_shiftLeft, BitVec.toNat_setWidth, BitVec.toNat_setWidth,
    Nat.mod_eq_of_lt (show op.toNat < 2 ^ 32 by omega), Nat.mod_eq_of_lt (show imm.toNat < 2 ^ 32 by omega),
    Nat.mod_eq_of_lt shifted, ← Nat.shiftLeft_add_eq_or_of_lt (show imm.toNat < 2 ^ 24 by omega), Nat.shiftLeft_eq]

/-- A word whose reserved field is zero is put together from its two other fields (R70, R75). -/
theorem commandWord_op_imm8 {w : CommandWord} (h : w.res = 0) : commandWord w.op w.imm8 = w := by
  have hres : w.toNat / 2 ^ 8 % 2 ^ 16 = 0 := by rw [← toNat_res, h]; rfl
  rw [← BitVec.toNat_inj, toNat_commandWord, toNat_op, toNat_imm8]
  omega

/-! ### Decode and encode (R73, R77, R78) -/

/-- A word of the encoder's shape is read by the opcode map. -/
theorem decode_commandWord (op imm : Byte) : decode (commandWord op imm) = decodeOp op imm := by
  obtain ⟨hop, hres, himm⟩ := Laws.commandWord_fields op imm
  rw [decode, if_pos hres, hop, himm]

/-- Settles O2, command by command: the encoder's word is read by its opcode. -/
theorem decodeAfterEncodeIsIdentity : Obligations.DecodeAfterEncodeIsIdentity := by
  intro i
  cases i <;> exact decode_commandWord _ _

theorem encode_injective : Function.Injective encode := by
  intro i j h
  have decoded := congrArg decode h
  rwa [decodeAfterEncodeIsIdentity, decodeAfterEncodeIsIdentity, Except.ok.injEq] at decoded

theorem decodeBare_eq_ok {imm : Byte} {i j : Instr} (h : decodeBare imm i = .ok j) : imm = 0 ∧ i = j := by
  unfold decodeBare at h
  split at h
  next zero => exact ⟨zero, Except.ok.inj h⟩
  next => cases h

/-- What the opcode map reads as a command is that command's opcode and operand byte. -/
theorem encode_of_decodeOp {op imm : Byte} {i : Instr} (h : decodeOp op imm = .ok i) :
    encode i = commandWord op imm := by
  unfold decodeOp at h
  split_ifs at h with init absorb finalSha3 finalShake squeeze digestRead
  · obtain rfl := Except.ok.inj h
    rw [init, encode]
  · obtain rfl := Except.ok.inj h
    rw [absorb, encode]
  · obtain ⟨rfl, rfl⟩ := decodeBare_eq_ok h
    rw [finalSha3, encode]
  · obtain ⟨rfl, rfl⟩ := decodeBare_eq_ok h
    rw [finalShake, encode]
  · obtain ⟨rfl, rfl⟩ := decodeBare_eq_ok h
    rw [squeeze, encode]
  · obtain rfl := Except.ok.inj h
    rw [digestRead, encode]

/-- Settles O3: a word that decodes has a zero reserved field, so its opcode and operand byte are the whole of it. -/
theorem encodeAfterDecodeIsIdentity : Obligations.EncodeAfterDecodeIsIdentity := by
  intro w i h
  unfold decode at h
  split at h
  next res => rw [encode_of_decodeOp h, commandWord_op_imm8 res]
  next => cases h

/-- Settles O1: each word is its command's encoding. -/
theorem wordsOfTheOpcodeMapDecode : Obligations.WordsOfTheOpcodeMapDecode :=
  have read := decodeAfterEncodeIsIdentity
  ⟨read (.init 32), read (.init 255), read (.absorb 0x61), read .finalSha3, read .finalShake, read .squeeze,
    read (.digestRead 31)⟩

/-! ### The illegal words (R75, R76) -/

theorem decodeBare_error_iff (imm : Byte) (i : Instr) : (∃ e, decodeBare imm i = .error e) ↔ imm.toNat ≠ 0 := by
  by_cases zero : imm = 0
  · simp [decodeBare, zero]
  · rw [decodeBare, if_neg zero]
    exact iff_of_true ⟨_, rfl⟩ (mt (BitVec.eq_of_toNat_eq (y := 0)) zero)

/-- R76 (a) and (c) on the fields the opcode map reads. -/
theorem decodeOp_error_iff (op imm : Byte) :
    (∃ e, decodeOp op imm = .error e) ↔
      (op.toNat = 0 ∨ 7 ≤ op.toNat) ∨ ((op.toNat = 3 ∨ op.toNat = 4 ∨ op.toNat = 5) ∧ imm.toNat ≠ 0) := by
  unfold decodeOp
  split_ifs with init absorb finalSha3 finalShake squeeze digestRead
  · simp [init]
  · simp [absorb]
  · simp [finalSha3, decodeBare_error_iff]
  · simp [finalShake, decodeBare_error_iff]
  · simp [squeeze, decodeBare_error_iff]
  · simp [digestRead]
  · simp only [← BitVec.toNat_inj, BitVec.reduceToNat] at *
    simp only [Except.error.injEq, exists_eq', true_iff]
    omega

/-- R76: the reserved field, or what the opcode map rejects. -/
theorem decode_error_iff (w : CommandWord) :
    (∃ e, decode w = .error e) ↔ w.res ≠ 0 ∨ ∃ e, decodeOp w.op w.imm8 = .error e := by
  by_cases res : w.res = 0
  · simp [decode, res]
  · rw [decode, if_neg res]
    exact iff_of_true ⟨_, rfl⟩ (.inl res)

/-- `ILLEGAL` is the word `0x0300` (R71, R72). -/
theorem responseWord_illegal : responseWord .illegal 0x00 = 0x0300 := rfl

/-- Settles O4: the decoder's checks with each field as a number, and `ILLEGAL` raised for a word that fails one. -/
theorem illegalWordsAreExactly : Obligations.IllegalWordsAreExactly := by
  intro w
  constructor
  · have res : w.res ≠ 0 ↔ w.toNat / 2 ^ 8 % 2 ^ 16 ≠ 0 := by
      rw [ne_eq, ← BitVec.toNat_inj, toNat_res]
      rfl
    rw [decode_error_iff, decodeOp_error_iff, res, toNat_op, toNat_imm8, or_left_comm]
  · rintro s ⟨e, illegal⟩
    rw [runWord, illegal, ← responseWord_illegal]
    rfl

/-! ### The legal words (R78) -/

/-- The 256 operand bytes. -/
def allBytes : List Byte := (List.finRange 256).map BitVec.ofFin

theorem mem_allBytes (b : Byte) : b ∈ allBytes := List.mem_map.2 ⟨b.toFin, List.mem_finRange _, rfl⟩

theorem nodup_allBytes : allBytes.Nodup :=
  (List.nodup_finRange 256).map fun _ _ h => congrArg BitVec.toFin h

theorem length_allBytes : allBytes.length = 256 := by simp [allBytes]

/-- Every command, by its opcode's operands: the three without one, and the three with any byte. -/
def allCommands : List Instr :=
  [.finalSha3, .finalShake, .squeeze] ++ (allBytes.map .init ++ (allBytes.map .absorb ++ allBytes.map .digestRead))

theorem mem_allCommands (i : Instr) : i ∈ allCommands := by
  cases i <;> simp [allCommands, mem_allBytes]

theorem nodup_allCommands : allCommands.Nodup := by
  have init : (allBytes.map Instr.init).Nodup := nodup_allBytes.map fun _ _ => Instr.init.inj
  have absorb : (allBytes.map Instr.absorb).Nodup := nodup_allBytes.map fun _ _ => Instr.absorb.inj
  have digestRead : (allBytes.map Instr.digestRead).Nodup := nodup_allBytes.map fun _ _ => Instr.digestRead.inj
  refine List.Nodup.append (by decide) (init.append (absorb.append digestRead ?_) ?_) ?_
  · simp [List.Disjoint]
  · simp [List.Disjoint]
  · simp [List.Disjoint]

theorem length_allCommands : allCommands.length = 771 := by simp [allCommands, length_allBytes]

/-- Settles O5: the legal words are the encodings of the commands, all different, and there are 3 + 3 * 256 commands. -/
theorem legalWordsNumber771 : Obligations.LegalWordsNumber771 := by
  refine ⟨allCommands.map encode, nodup_allCommands.map encode_injective, ?_, fun w => ?_⟩
  · rw [List.length_map, length_allCommands]
  · rw [List.mem_map]
    constructor
    · rintro ⟨i, -, rfl⟩
      exact ⟨i, decodeAfterEncodeIsIdentity i⟩
    · rintro ⟨i, h⟩
      exact ⟨i, mem_allCommands i, encodeAfterDecodeIsIdentity w i h⟩

/-! ### The response word (R71, R72) -/

@[simp] theorem responseStatus_responseWord (status : Status) (d : Byte) :
    responseStatus (responseWord status d) = status.code := by
  have hcode : status.code.toNat < 4 := status.code.isLt
  rw [← BitVec.toNat_inj, responseStatus, BitVec.extractLsb'_toNat, toNat_responseWord, Nat.shiftRight_eq_div_pow]
  omega

@[simp] theorem responseData_responseWord (status : Status) (d : Byte) :
    responseData (responseWord status d) = d := by
  rw [← BitVec.toNat_inj, responseData, BitVec.extractLsb'_toNat, toNat_responseWord, Nat.shiftRight_zero]
  omega

/-- After `SQUEEZE` opened a block its cursor is at most 254, so the advanced cursor is one above it. -/
theorem State.openBlock_cursor (s : State) : s.openBlock.cursor = s.openBlock.advance.position.toNat - 1 := by
  have noWrap : s.openBlock.position.toNat < 255 := by
    by_cases used : s.rate ≤ s.position
    · rw [State.openBlock_used s used]
      exact Nat.zero_lt_succ _
    · have below : s.position.toNat < s.rate.toNat := BitVec.not_le.1 used
      have := s.rate.isLt
      rw [State.openBlock_open s used]
      omega
  rw [State.advance_toNat _ noWrap]
  rfl

/-- What R71 and R72 say of the response to command `i`, run from `s` to `t`: the word of a status and a data byte, which with
status `OK` is the output byte of `SQUEEZE` or of `DIGEST_READ` and in every other case 0x00. -/
def AnswersWithItsByte (i : Instr) (s t : State) : Prop :=
  ∃ status d, t.rsp = some (responseWord status d) ∧
    (status = .ok → i = .squeeze → d = t.byte (t.position.toNat - 1)) ∧
    (∀ k, status = .ok → i = .digestRead k → d = s.byte k.toNat) ∧
    (d ≠ 0x00 → status = .ok ∧ (i = .squeeze ∨ ∃ k, i = .digestRead k))

theorem exec_answersWithItsByte {i : Instr} {s t : State} (h : exec i s = .next t) : AnswersWithItsByte i s t := by
  obtain ⟨status, failed, e⟩ | ⟨_, rfl, _, e⟩ | ⟨_, rfl, _, e⟩ | ⟨rfl, _, e⟩ | ⟨rfl, _, e⟩ | ⟨rfl, _, e⟩ |
      ⟨index, rfl, _, _, e⟩ := exec_cases i s <;>
    obtain rfl := Host.Outcome.next.inj (h.symm.trans e)
  case inl => exact ⟨status, 0x00, rfl, by simp [failed]⟩
  case inr.inr.inr.inr.inr.inl =>
    refine ⟨.ok, _, rfl, fun _ _ => ?_, by simp⟩
    rw [State.openBlock_cursor]
    rfl
  case inr.inr.inr.inr.inr.inr => exact ⟨.ok, _, rfl, by simp⟩
  all_goals exact ⟨.ok, 0x00, rfl, by simp⟩

/-- Settles O6: the codes, the layout of the word, and its data byte by what a run can answer. -/
theorem responseWordLayout : Obligations.ResponseWordLayout := by
  refine ⟨⟨rfl, rfl, rfl, rfl⟩, fun status d => ⟨toNat_responseWord status d, by simp⟩, fun w s t h => ?_⟩
  obtain ⟨i, decoded, e⟩ | ⟨_, illegal, e⟩ := runWord_cases w s
  · simpa only [AnswersWithItsByte, decoded, Except.ok.injEq] using exec_answersWithItsByte (e.symm.trans h)
  · obtain rfl := Host.Outcome.next.inj (h.symm.trans e)
    exact ⟨.illegal, 0x00, rfl, by simp⟩

end Sys2Proof.Machine
end

section
/-! The assembler (spec/30_encoding.md section 5, R80 and R81; spec/42_streaming_facade.md R165 and R166): what each line
assembles to and when it is refused. -/
namespace Sys2Proof.Machine

/-! ### The checks and one line's program -/

theorem operandFits_iff (n : Nat) : operandFits n = true ↔ n ≤ 255 := by simp [operandFits]

theorem hashLengthLegal_iff (outLen : Nat) : hashLengthLegal outLen = true ↔ outLen ∈ [28, 32, 48, 64] := by
  simp [hashLengthLegal, or_assoc]

theorem shakeBitsLegal_iff (bits : Nat) : shakeBitsLegal bits = true ↔ bits ∈ [128, 256] := by
  simp [shakeBitsLegal]

theorem asciiOnly_iff (codes : List Nat) : asciiOnly codes = true ↔ ∀ c ∈ codes, c < 128 := by
  simp [asciiOnly]

/-- A program of one line is the line's expansion, with no `INIT` before it. -/
theorem assemble_singleton (line : AsmLine) : assemble [line] = line.expand none :=
  assembleFrom_singleton none line

/-- The words of a line that expands to one command. -/
theorem assembleWords_of_expand {line : AsmLine} {i : Instr} (h : line.expand none = .ok [i]) :
    assembleWords [line] = .ok [encode i] := by
  rw [assembleWords, assemble_singleton, h]
  rfl

/-- A refused line refuses its program. -/
theorem assembleWords_of_refused {line : AsmLine} {e : AsmError} (h : line.expand none = .error e) :
    assembleWords [line] = .error e := by
  rw [assembleWords, assemble_singleton, h]
  rfl

/-- An accepted line before a program. -/
theorem assembleFrom_cons {line : AsmLine} {lastInit : Option Nat} {is : List Instr}
    (h : line.expand lastInit = .ok is) (rest : List AsmLine) :
    assembleFrom lastInit (line :: rest) = (assembleFrom (line.initOperand.or lastInit) rest).map (is ++ ·) :=
  assembleFrom_append ((assembleFrom_singleton lastInit line).trans h) rest

/-! ### Command lines (R80) -/

/-- The word `(op << 24) | imm8` as a number. -/
theorem commandWord_ofNat (op : Byte) {n : Nat} (h : n ≤ 255) :
    commandWord op (BitVec.ofNat 8 n) = BitVec.ofNat 32 (op.toNat * 2 ^ 24 + n) := by
  have hop := op.isLt
  rw [← BitVec.toNat_inj, toNat_commandWord, BitVec.toNat_ofNat, BitVec.toNat_ofNat]
  omega

section
variable {n : Nat} (h : n ≤ 255) (lastInit : Option Nat)
include h

theorem expand_init : (AsmLine.init n).expand lastInit = .ok [.init (BitVec.ofNat 8 n)] :=
  checked_ok ((operandFits_iff n).2 h) _ _

theorem expand_absorb : (AsmLine.absorb n).expand lastInit = .ok [.absorb (BitVec.ofNat 8 n)] :=
  checked_ok ((operandFits_iff n).2 h) _ _

theorem expand_digestRead : (AsmLine.digestRead n).expand lastInit = .ok [.digestRead (BitVec.ofNat 8 n)] :=
  checked_ok ((operandFits_iff n).2 h) _ _

end

/-- Settles O52: an operand that fits is the word's operand byte, and one that does not is refused by the line's check. -/
theorem commandLinesAssemble : Obligations.CommandLinesAssemble := by
  refine ⟨fun n h => ?_, ⟨rfl, rfl, rfl⟩, fun n h => ?_⟩
  · refine ⟨?_, ?_, ?_⟩
    · rw [assembleWords_of_expand (expand_init h none), encode, commandWord_ofNat 0x01 h]
      rfl
    · rw [assembleWords_of_expand (expand_absorb h none), encode, commandWord_ofNat 0x02 h]
      rfl
    · rw [assembleWords_of_expand (expand_digestRead h none), encode, commandWord_ofNat 0x06 h]
      rfl
  · have tooLarge : operandFits n = false := Bool.eq_false_iff.2 (mt (operandFits_iff n).1 (Nat.not_le.2 h))
    exact ⟨assembleWords_of_refused (checked_error tooLarge _ _),
      assembleWords_of_refused (checked_error tooLarge _ _), assembleWords_of_refused (checked_error tooLarge _ _)⟩

/-! ### Pseudo-instructions (R81) -/

/-- Settles O53: each line's expansion, and the checks of `STREAM.OPEN` and `ABSORB.STR`. -/
theorem pseudoInstructionsExpand : Obligations.PseudoInstructionsExpand := by
  simp only [Obligations.PseudoInstructionsExpand, assemble_singleton]
  refine ⟨fun h n => ⟨rfl, rfl, rfl, rfl, rfl⟩, ⟨rfl, rfl⟩, fun bits h => ?_, fun codes => ⟨fun h => ?_, ?_⟩⟩
  · exact checked_error (Bool.eq_false_iff.2 (mt (shakeBitsLegal_iff bits).1 h)) _ _
  · rw [AsmLine.expand, checked_ok ((asciiOnly_iff codes).2 h), absorbAll, List.map_map]
    rfl
  · rintro ⟨c, hc, notAscii⟩
    have notAll : ¬ ∀ c ∈ codes, c < 128 := fun ascii => absurd (ascii c hc) (Nat.not_lt.2 notAscii)
    exact checked_error (Bool.eq_false_iff.2 (mt (asciiOnly_iff codes).1 notAll)) _ _

/-- `DIGEST.ALL` at the end of a program that assembles expands from the most recent `INIT` the program leaves. -/
theorem assemble_digestAll {program : List AsmLine} {is : List Instr} (h : assemble program = .ok is) :
    assemble (program ++ [.digestAll]) =
      (AsmLine.digestAll.expand (lastInitAfter none program)).map (is ++ ·) := by
  rw [assemble, assembleFrom_append h, assembleFrom_singleton]

/-- Settles O54: the most recent `INIT` is the last `INIT` line where none follows it, and there is none where no line holds
one. -/
theorem digestAllReadsTheLastInit : Obligations.DigestAllReadsTheLastInit := by
  constructor
  · intro before since outLen is noInit assembled
    rw [assemble_digestAll assembled, lastInitAfter_init none before since outLen noInit]
    rfl
  · intro program is noInit assembled
    rw [assemble_digestAll assembled, lastInitAfter_of_none noInit]
    rfl

/-! ### The one-shot calls (R81, R165, R166) -/

/-- The lines `HASH` stands for, with any `L` that `INIT` can be given. -/
theorem assemble_hash_lines (outLen : Nat) (h : List Byte) (fits : outLen ≤ 255) :
    assemble [.init outLen, .absorbBytes h, .finalSha3, .digestAll] =
      .ok (.init (BitVec.ofNat 8 outLen) :: (h.map .absorb ++ .finalSha3 :: digestReads outLen)) := by
  rw [assemble, assembleFrom_cons (expand_init fits none), assembleFrom_cons rfl, assembleFrom_cons rfl, assembleFrom_singleton]
  rfl

/-- The lines `SHAKE` stands for, with any length that `INIT` can be given. -/
theorem assemble_shake_lines (outLen : Nat) (h : List Byte) (n : Nat) (fits : outLen ≤ 255) :
    assemble [.init outLen, .absorbBytes h, .finalShake, .squeezeN n] =
      .ok (.init (BitVec.ofNat 8 outLen) :: (h.map .absorb ++ .finalShake :: List.replicate n .squeeze)) := by
  rw [assemble, assembleFrom_cons (expand_init fits none), assembleFrom_cons rfl, assembleFrom_cons rfl, assembleFrom_singleton]
  rfl

/-- `HASH` with a legal `L` is its sequence of commands. -/
theorem assemble_hash {outLen : Nat} (h : List Byte) (legal : outLen ∈ [28, 32, 48, 64]) :
    assemble [.hash outLen h] =
      .ok (.init (BitVec.ofNat 8 outLen) :: (h.map .absorb ++ .finalSha3 :: digestReads outLen)) := by
  rw [assemble_singleton, AsmLine.expand, checked_ok ((hashLengthLegal_iff outLen).2 legal)]
  simp [absorbAll]

/-- `SHAKE` with legal `bits` is its sequence of commands. -/
theorem assemble_shake {bits : Nat} (h : List Byte) (n : Nat) (legal : bits ∈ [128, 256]) :
    assemble [.shake bits h n] =
      .ok (.init (BitVec.ofNat 8 (bits / 8)) :: (h.map .absorb ++ .finalShake :: List.replicate n .squeeze)) := by
  rw [assemble_singleton, AsmLine.expand, checked_ok ((shakeBitsLegal_iff bits).2 legal)]
  simp [absorbAll, squeezeTimes]

/-- Settles O55: the call and the row's own lines are the same sequence of commands, since a legal length fits `INIT`'s operand;
any other length fails the call's check. -/
theorem oneShotCallsExpand : Obligations.OneShotCallsExpand := by
  refine ⟨fun outLen h legal => ?_, fun outLen h illegal => ?_, fun bits h n legal => ?_, fun bits h n illegal => ?_⟩
  · have fits : outLen ≤ 255 := by
      simp only [List.mem_cons, List.not_mem_nil, or_false] at legal
      omega
    exact ⟨(assemble_hash h legal).trans (assemble_hash_lines outLen h fits).symm, assemble_hash h legal⟩
  · rw [assemble_singleton]
    exact checked_error (Bool.eq_false_iff.2 (mt (hashLengthLegal_iff outLen).1 illegal)) _ _
  · have fits : bits / 8 ≤ 255 := by
      simp only [List.mem_cons, List.not_mem_nil, or_false] at legal
      omega
    exact ⟨(assemble_shake h n legal).trans (assemble_shake_lines (bits / 8) h n fits).symm, assemble_shake h n legal⟩
  · rw [assemble_singleton]
    exact checked_error (Bool.eq_false_iff.2 (mt (shakeBitsLegal_iff bits).1 illegal)) _ _

end Sys2Proof.Machine
end

section
/-! The lane storage order is never observed (spec/40_keccak_permutation.md section 3, R108, R109): every operation of the
block works on the canonical lanes, so two states with the same lanes stay alike. -/
namespace Sys2Proof.Machine

/-- A choice both runs make alike. -/
theorem sameOutcome_ite {R : State → State → Prop} {c : Prop} [Decidable c]
    {a a' b b' : Host.Outcome State Fault Refusal} (ha : SameOutcome R a a') (hb : SameOutcome R b b') :
    SameOutcome R (if c then a else b) (if c then a' else b') := by
  split
  · exact ha
  · exact hb

namespace SameButStorage
variable {s t : State} (h : SameButStorage s t)
include h

/-! ### What related states share -/

theorem eq_withStorage : ∃ words storage, t = { s with words := words, laneStorage := storage } :=
  ⟨_, _, h.1⟩

theorem phase_eq : t.phase = s.phase := (congrArg State.phase h.1 :)

theorem L_eq : t.L = s.L := (congrArg State.L h.1 :)

theorem rate_eq : t.rate = s.rate := (congrArg State.rate h.1 :)

theorem position_eq : t.position = s.position := (congrArg State.position h.1 :)

theorem rsp_eq : t.rsp = s.rsp := (congrArg State.rsp h.1 :)

theorem host_eq : t.host = s.host := (congrArg State.host h.1 :)

theorem freeCount_eq : t.freeCount = s.freeCount := (congrArg State.freeCount h.1 :)

theorem byte_eq (j : Nat) : t.byte j = s.byte j := s.byte_of_lanes h.2.symm j

theorem cursor_eq : t.cursor = s.cursor := congrArg BitVec.toNat h.position_eq

theorem padAddress_eq : t.padAddress = s.padAddress := congrArg (·.toNat - 1) h.rate_eq

/-- The ports of related states are the same, so the same transfer happens. -/
theorem portEvent_eq : t.portEvent = s.portEvent := by
  simp [State.portEvent, State.cmdReady, State.rspValid, State.edge, h.rsp_eq, h.host_eq]

/-! ### What keeps them related: an update gives the same fields, and the same lanes by its law on the lane view -/

theorem offer (r : ResponseWord) : SameButStorage (s.offer r) (t.offer r) :=
  ⟨congrArg (·.offer r) h.1, h.2⟩

theorem passEdge : SameButStorage s.passEdge t.passEdge :=
  ⟨congrArg State.passEdge h.1, h.2⟩

theorem setPosition (p : Byte) : SameButStorage (s.setPosition p) (t.setPosition p) :=
  ⟨congrArg (·.setPosition p) h.1, h.2⟩

theorem setPhase (p : Phase) : SameButStorage (s.setPhase p) (t.setPhase p) :=
  ⟨congrArg (·.setPhase p) h.1, h.2⟩

theorem advance : SameButStorage s.advance t.advance :=
  ⟨congrArg State.advance h.1, h.2⟩

theorem xorByte (j : Nat) (b : Byte) : SameButStorage (s.xorByte j b) (t.xorByte j b) :=
  ⟨congrArg (·.xorByte j b) h.1, by simp [h.2]⟩

theorem permute : SameButStorage s.permute t.permute :=
  ⟨congrArg State.permute h.1, by simp [h.2]⟩

theorem created (outLen : Byte) : SameButStorage (s.created outLen) (t.created outLen) :=
  ⟨congrArg (·.created outLen) h.1, by simp⟩

theorem takeResponse : SameButStorage s.takeResponse t.takeResponse := by
  cases pending : s.rsp with
  | none => rwa [State.takeResponse_none s pending, State.takeResponse_none t (h.rsp_eq.trans pending)]
  | some r =>
    rw [State.takeResponse_some s r pending, State.takeResponse_some t r (h.rsp_eq.trans pending)]
    obtain ⟨words, storage, rfl⟩ := h.eq_withStorage
    exact ⟨rfl, h.2⟩

/-- The free values of a reset edge are stored as canonical lanes (R200). -/
theorem resetEdge : SameButStorage s.resetEdge t.resetEdge := by
  obtain ⟨words, storage, rfl⟩ := h.eq_withStorage
  exact ⟨rfl, by simp [State.lanes, State.resetEdge]⟩

theorem closeBlock : SameButStorage s.closeBlock t.closeBlock := by
  unfold State.closeBlock
  rw [h.position_eq, h.rate_eq]
  split
  · exact h.permute.setPosition 0
  · exact h

theorem openBlock : SameButStorage s.openBlock t.openBlock := by
  unfold State.openBlock
  rw [h.position_eq, h.rate_eq]
  split
  · exact h.permute.setPosition 0
  · exact h

theorem finalize (suffix : Byte) (p : Phase) : SameButStorage (s.finalize suffix p) (t.finalize suffix p) := by
  have padded := (h.xorByte s.cursor suffix).xorByte s.padAddress 0x80
  unfold State.finalize
  rw [h.cursor_eq, h.padAddress_eq]
  exact (padded.permute.setPosition 0).setPhase p

/-! ### Commands and steps -/

/-- A command's checks read shared registers, and the byte it answers with is a byte of the lanes. -/
theorem sameOutcome_exec (i : Instr) : SameOutcome SameButStorage (exec i s) (exec i t) := by
  cases i with
  | init outLen =>
    show SameOutcome _ (execInit outLen s) (execInit outLen t)
    exact sameOutcome_ite ((h.created outLen).offer _) (h.offer _)
  | absorb data =>
    show SameOutcome _ (execAbsorb data s) (execAbsorb data t)
    rw [execAbsorb, execAbsorb, h.phase_eq, h.cursor_eq]
    exact sameOutcome_ite ((h.xorByte s.cursor data).advance.closeBlock.offer _) (h.offer _)
  | finalSha3 =>
    show SameOutcome _ (execFinalSha3 s) (execFinalSha3 t)
    rw [execFinalSha3, execFinalSha3, h.phase_eq]
    exact sameOutcome_ite ((h.finalize 0x06 .digest).offer _) (h.offer _)
  | finalShake =>
    show SameOutcome _ (execFinalShake s) (execFinalShake t)
    rw [execFinalShake, execFinalShake, h.phase_eq]
    exact sameOutcome_ite ((h.finalize 0x1F .squeezing).offer _) (h.offer _)
  | squeeze =>
    show SameOutcome _ (execSqueeze s) (execSqueeze t)
    rw [execSqueeze, execSqueeze, h.phase_eq, h.openBlock.cursor_eq, h.openBlock.byte_eq]
    exact sameOutcome_ite (h.openBlock.advance.offer _) (h.offer _)
  | digestRead index =>
    show SameOutcome _ (execDigestRead index s) (execDigestRead index t)
    rw [execDigestRead, execDigestRead, digestIndexLegal, digestIndexLegal, h.phase_eq, h.L_eq, h.byte_eq]
    exact sameOutcome_ite (sameOutcome_ite (h.offer _) (h.offer _)) (h.offer _)

theorem sameOutcome_runWord (w : CommandWord) : SameOutcome SameButStorage (runWord w s) (runWord w t) := by
  unfold runWord
  cases decode w with
  | ok i => exact h.sameOutcome_exec i
  | error e => exact h.offer _

end SameButStorage

/-- Settles O20: related states see the same transfer at their ports, and each transfer keeps the relation. -/
theorem laneStorageIsNeverObserved : Obligations.LaneStorageIsNeverObserved := by
  intro s t h
  unfold step
  rw [h.portEvent_eq]
  cases s.portEvent with
  | secondHost => rfl
  | reset => exact h.passEdge.resetEdge
  | command w => exact h.passEdge.sameOutcome_runWord w
  | response => exact h.passEdge.takeResponse
  | wait => exact h.passEdge

end Sys2Proof.Machine
end

section
/-! The stages of the permutation (spec/40_keccak_permutation.md sections 1 and 2, R102 to R107): what each stage leaves in each
lane. -/
namespace Sys2Proof.Machine

theorem laneAt_of_lt (A : Lanes) {i : Nat} (hi : i < 25) : laneAt A i = A[i] := dif_pos hi

/-! ### Theta (R102) -/

theorem getElem_thetaC (A : Lanes) {x : Nat} (hx : x < 5) :
    (thetaC A)[x] =
      laneAt A x ^^^ laneAt A (x + 5) ^^^ laneAt A (x + 10) ^^^ laneAt A (x + 15) ^^^ laneAt A (x + 20) := by
  simp (disch := omega) only [thetaC, Vector.getElem_ofFn, laneAt_of_lt]

/-- Theta adds to lane `i` the parity of the column before it and, rotated by one place, of the column after it. -/
theorem laneAt_theta (A : Lanes) {i : Nat} (hi : i < 25) :
    laneAt (theta A) i =
      laneAt A i ^^^ ((thetaC A)[(i % 5 + 4) % 5] ^^^ rotl64 ((thetaC A)[(i % 5 + 1) % 5]) 1) := by
  simp [laneAt_of_lt _ hi, theta, addColumns, thetaD]

/-- A rotation by one place takes each bit from the place below it, around the lane. -/
theorem getLsbD_rotl64_one (v : Lane) {z : Nat} (hz : z < 64) :
    (rotl64 v 1).getLsbD z = v.getLsbD ((z + 63) % 64) := by
  have back : ((z + 63) % 64 + 1) % 64 = z := by omega
  rw [← getLsbD_rotl64_add_mod v 1 ((z + 63) % 64) (by omega) (by omega), back]

/-- Settles O12: the two parities of `laneAt_theta`, bit by bit. -/
theorem thetaBitByBit : Obligations.ThetaBitByBit := by
  intro A i z hi hz a parity
  have parity_eq (x b : Nat) (hx : x < 5) : ((thetaC A)[x]).getLsbD b = parity x b := by
    simp only [getElem_thetaC A hx, BitVec.getLsbD_xor]
    rfl
  rw [laneAt_theta A hi, BitVec.getLsbD_xor, BitVec.getLsbD_xor, getLsbD_rotl64_one _ hz, parity_eq, parity_eq]

/-! ### Rho-pi (R103, R104) -/

theorem nodup_chase : (CHASE.map Prod.fst).Nodup := by decide

theorem zero_notMem_chase : (0 : Fin 25) ∉ CHASE.map Prod.fst := by decide

/-- Settles O14, over the fixed table. -/
theorem chaseTableVisitsEveryLane : Obligations.ChaseTableVisitsEveryLane :=
  ⟨rfl, nodup_chase, zero_notMem_chase, rfl, by decide⟩

/-! Both forms of rho-pi write lanes one after another, no lane twice. -/

/-- The lanes after the writes `(destination, value)`, one after another. -/
def writeLanes (A : Lanes) (writes : List (Fin 25 × Lane)) : Lanes :=
  writes.foldl (fun A w => A.set w.1 w.2) A

theorem getElem_writeLanes_of_notMem {A : Lanes} {writes : List (Fin 25 × Lane)} {d : Fin 25}
    (h : d ∉ writes.map Prod.fst) : (writeLanes A writes)[d] = A[d] := by
  induction writes generalizing A with
  | nil => rfl
  | cons w writes ih =>
    rw [List.map_cons, List.mem_cons, not_or] at h
    obtain ⟨notHere, notLater⟩ := h
    have notHere' : w.1.val ≠ d.val := fun e => notHere (Fin.ext e.symm)
    calc (writeLanes (A.set w.1 w.2) writes)[d]
        = (A.set w.1 w.2)[d] := ih notLater
      _ = A[d] := Vector.getElem_set_ne _ _ notHere'

/-- Where no destination comes twice, every written value stays. -/
theorem getElem_writeLanes_of_mem {A : Lanes} {writes : List (Fin 25 × Lane)} {d : Fin 25} {v : Lane}
    (nodup : (writes.map Prod.fst).Nodup) (h : (d, v) ∈ writes) : (writeLanes A writes)[d] = v := by
  induction writes generalizing A with
  | nil => cases h
  | cons w writes ih =>
    rw [List.map_cons, List.nodup_cons] at nodup
    obtain ⟨notLater, nodup⟩ := nodup
    rw [List.mem_cons] at h
    obtain rfl | later := h
    · calc (writeLanes (A.set d v) writes)[d]
          = (A.set d v)[d] := getElem_writeLanes_of_notMem notLater
        _ = v := Vector.getElem_set_self _
    · exact ih nodup later

/-- The source of each step of a chase that starts at lane `src`, with the step: the destination of the step before. -/
def chaseSources (src : Fin 25) (steps : List (Fin 25 × Nat)) : List (Fin 25 × Fin 25 × Nat) :=
  (src :: steps.map Prod.fst).zip steps

/-- The writes of a chase over the lanes `A`. -/
def chaseWrites (A : Lanes) (src : Fin 25) (steps : List (Fin 25 × Nat)) : List (Fin 25 × Lane) :=
  (chaseSources src steps).map fun p => (p.2.1, rotl64 A[p.1] p.2.2)

/-- A chase whose destinations are distinct writes lanes of the state before it. Here `A` is that state and `B` the state now,
which agrees with `A` where the chase still has to go. -/
theorem foldl_chaseStep {A B : Lanes} {src : Fin 25} {steps : List (Fin 25 × Nat)}
    (nodup : (steps.map Prod.fst).Nodup) (fresh : ∀ d ∈ steps.map Prod.fst, B[d] = A[d]) :
    (steps.foldl chaseStep (B, A[src])).1 = writeLanes B (chaseWrites A src steps) := by
  induction steps generalizing B src with
  | nil => rfl
  | cons step steps ih =>
    rw [List.map_cons, List.nodup_cons] at nodup
    obtain ⟨notLater, nodup⟩ := nodup
    have next : B[step.1] = A[step.1] := fresh _ (by simp)
    have fresh' : ∀ d ∈ steps.map Prod.fst, (B.set step.1 (rotl64 A[src] step.2))[d] = A[d] := by
      intro d hd
      have other : step.1.val ≠ d.val := fun e => notLater (Fin.ext e ▸ hd)
      calc (B.set step.1 (rotl64 A[src] step.2))[d]
          = B[d] := Vector.getElem_set_ne _ _ other
        _ = A[d] := fresh d (List.mem_cons_of_mem _ hd)
    calc ((step :: steps).foldl chaseStep (B, A[src])).1
        = (steps.foldl chaseStep (B.set step.1 (rotl64 A[src] step.2), A[step.1])).1 := by
          rw [List.foldl_cons, chaseStep, next]
      _ = writeLanes (B.set step.1 (rotl64 A[src] step.2)) (chaseWrites A step.1 steps) := ih nodup fresh'
      _ = writeLanes B (chaseWrites A src (step :: steps)) := rfl

theorem rhoPi_eq_writeLanes (A : Lanes) : rhoPi A = writeLanes A (chaseWrites A 1 CHASE) :=
  foldl_chaseStep (src := 1) (steps := CHASE) nodup_chase fun _ _ => rfl

theorem map_fst_chaseWrites (A : Lanes) : (chaseWrites A 1 CHASE).map Prod.fst = CHASE.map Prod.fst := rfl

/-- Every lane but 0 is the source of a step, which rotates it by its offset and takes it to its place. -/
theorem mem_chaseSources : ∀ i : Fin 25, i ≠ 0 → (i, piDst i, RHO[i]) ∈ chaseSources 1 CHASE := by decide

theorem piDst_bijective : Function.Bijective piDst := by decide

theorem piDst_eq_self_iff : ∀ i : Fin 25, piDst i = i ↔ i = 0 := by decide

/-- The chase takes lane `i`, rotated by `RHO[i]`, to `PI[i]`. -/
theorem getElem_rhoPi (A : Lanes) (i : Fin 25) : (rhoPi A)[piDst i] = rotl64 A[i] RHO[i] := by
  rw [rhoPi_eq_writeLanes]
  by_cases hi : i = 0
  · subst hi
    exact getElem_writeLanes_of_notMem (d := 0) (map_fst_chaseWrites A ▸ zero_notMem_chase)
  · exact getElem_writeLanes_of_mem (map_fst_chaseWrites A ▸ nodup_chase)
      (List.mem_map_of_mem (f := fun p => (p.2.1, rotl64 A[p.1] p.2.2)) (mem_chaseSources i hi))

theorem rhoPiScratch_eq_writeLanes (A : Lanes) :
    rhoPiScratch A = writeLanes A ((List.finRange 25).map fun i => (piDst i, rotl64 A[i] RHO[i])) := by
  rw [rhoPiScratch, writeLanes, List.foldl_map]

/-- The scratch copy takes lane `i`, rotated by `RHO[i]`, to `PI[i]`. -/
theorem getElem_rhoPiScratch (A : Lanes) (i : Fin 25) : (rhoPiScratch A)[piDst i] = rotl64 A[i] RHO[i] := by
  have nodup : ((List.finRange 25).map piDst).Nodup := (List.nodup_finRange 25).map piDst_bijective.injective
  rw [rhoPiScratch_eq_writeLanes]
  refine getElem_writeLanes_of_mem ?_ (List.mem_map_of_mem (f := fun i => (piDst i, rotl64 A[i] RHO[i])) (List.mem_finRange i))
  rw [List.map_map]
  exact nodup

theorem rhoPi_eq_rhoPiScratch (A : Lanes) : rhoPi A = rhoPiScratch A := by
  apply Vector.ext
  intro j hj
  obtain ⟨i, hi⟩ := piDst_bijective.surjective ⟨j, hj⟩
  obtain rfl : (piDst i).val = j := congrArg Fin.val hi
  exact (getElem_rhoPi A i).trans (getElem_rhoPiScratch A i).symm

/-- Settles O13: both forms take each lane to the same place. -/
theorem chaseEqualsScratchCopy : Obligations.ChaseEqualsScratchCopy := by
  refine ⟨rhoPi_eq_rhoPiScratch, fun A i => ?_, piDst_bijective, piDst_eq_self_iff⟩
  rw [laneAt_of_lt A i.isLt]
  exact (laneAt_of_lt (rhoPi A) (piDst i).isLt).trans (getElem_rhoPi A i)

/-! ### Chi and iota (R106, R107) -/

theorem laneAt_chi (A : Lanes) {x y : Nat} (hx : x < 5) (hy : y < 5) :
    laneAt (chi A) (5 * y + x) =
      laneAt A (5 * y + x) ^^^
        (~~~(laneAt A (5 * y + (x + 1) % 5)) &&& laneAt A (5 * y + (x + 2) % 5)) := by
  have row : (5 * y + x) / 5 = y := by omega
  have column : (5 * y + x) % 5 = x := by omega
  simp (disch := omega) only [chi, Vector.getElem_ofFn, Fin.getElem_fin, laneAt_of_lt, row, column]

/-- Settles O15. -/
theorem chiUsesTheOldRow : Obligations.ChiUsesTheOldRow :=
  fun A _ _ hx hy => laneAt_chi A hx hy

theorem iota_eq_setLaneAt (A : Lanes) (rc : Lane) : iota A rc = setLaneAt A 0 (laneAt A 0 ^^^ rc) := rfl

/-- Settles O16: iota is one lane write. -/
theorem iotaChangesLaneZeroOnly : Obligations.IotaChangesLaneZeroOnly := by
  intro A r
  rw [iota_eq_setLaneAt]
  exact ⟨laneAt_setLaneAt_same A 0 _ (by decide), fun i hi => laneAt_setLaneAt_other A 0 i _ hi⟩

end Sys2Proof.Machine
end

section
/-! The permutation as a whole (spec/40_keccak_permutation.md sections 1 and 4, R100, R101, R108, R112): its rounds in order, and
that every stage can be undone. -/
namespace Sys2Proof.Machine

/-! ### The order of the rounds (R100, R101) -/

/-- The lanes before round `r`: the first `r` rounds run in increasing order. -/
def lanesBeforeRound (A : Lanes) (r : Nat) : Lanes := (RC.toList.take r).foldl keccakRound A

theorem lanesBeforeRound_succ (A : Lanes) (r : Fin 24) :
    lanesBeforeRound A (r.val + 1) = keccakRound (lanesBeforeRound A r.val) RC[r] := by
  have hr : r.val < RC.toList.length := r.isLt
  rw [lanesBeforeRound, ← List.take_append_getElem hr, List.foldl_append, Vector.getElem_toList]
  rfl

theorem laneAt_laneSwap_be (W : Lanes) {i : Nat} (hi : i < 25) : laneAt (laneSwap .be W) i = bswap64 (laneAt W i) := by
  simp [laneAt_of_lt _ hi, laneSwap]

/-- Settles O18: the sequence is that of the lanes before each round. -/
theorem roundsRunInIncreasingOrder : Obligations.RoundsRunInIncreasingOrder := by
  intro storage W swap
  have laneAt_laneSwap (A : Lanes) : ∀ i < 25, laneAt (laneSwap storage A) i = swap (laneAt A i) := by
    cases storage with
    | le => exact fun _ _ => rfl
    | be => exact fun _ hi => laneAt_laneSwap_be A hi
  exact ⟨lanesBeforeRound (laneSwap storage W), laneAt_laneSwap W, lanesBeforeRound_succ _, rfl,
    laneAt_laneSwap (keccakRounds (laneSwap storage W))⟩

/-! ### Iota, chi and rho-pi can be undone (R112) -/

theorem iota_iota (A : Lanes) (rc : Lane) : iota (iota A rc) rc = A := by
  simp [iota]

theorem iota_injective (rc : Lane) : Function.Injective (iota · rc) :=
  Function.Involutive.injective fun A => iota_iota A rc

/-- Chi on one row of five bits (R106). -/
def chiRow (row : Fin 5 → Bool) : Fin 5 → Bool :=
  fun x => (row x).xor (!row (x + 1) && row (x + 2))

theorem chiRow_injective : Function.Injective chiRow := by decide

/-- The bits at place `z` of the lanes of row `y`. -/
def rowBits (A : Lanes) (y z : Nat) : Fin 5 → Bool :=
  fun x => (laneAt A (5 * y + x.val)).getLsbD z

theorem rowBits_chi (A : Lanes) {y z : Nat} (hy : y < 5) (hz : z < 64) :
    rowBits (chi A) y z = chiRow (rowBits A y z) := by
  funext x
  simp [rowBits, chiRow, laneAt_chi A x.isLt hy, hz, Fin.val_add]

/-- Lanes are determined by the bits of their rows. -/
theorem lanes_ext_rowBits {A A' : Lanes} (h : ∀ y < 5, ∀ z < 64, rowBits A y z = rowBits A' y z) : A = A' := by
  apply lanes_ext
  intro i hi
  apply BitVec.eq_of_getLsbD_eq
  intro z hz
  have bit := congrFun (h (i / 5) (by omega) z hz) ⟨i % 5, Nat.mod_lt i (by decide)⟩
  simpa only [rowBits, Nat.div_add_mod] using bit

theorem chi_injective : Function.Injective chi := by
  intro A A' h
  refine lanes_ext_rowBits fun y hy z hz => chiRow_injective ?_
  rw [← rowBits_chi A hy hz, h, rowBits_chi A' hy hz]

theorem rotl64_injective {n : Nat} (hn : n < 64) : Function.Injective (rotl64 · n) := by
  intro v w (h : rotl64 v n = rotl64 w n)
  apply BitVec.eq_of_getLsbD_eq
  intro z hz
  rw [← getLsbD_rotl64_add_mod v n z hn hz, h, getLsbD_rotl64_add_mod w n z hn hz]

theorem RHO_lt : ∀ i : Fin 25, RHO[i] < 64 := by decide

theorem rhoPi_injective : Function.Injective rhoPi := by
  intro A A' h
  apply Vector.ext
  intro j hj
  apply rotl64_injective (RHO_lt ⟨j, hj⟩)
  calc rotl64 A[j] RHO[j]
      = (rhoPi A)[piDst ⟨j, hj⟩] := (getElem_rhoPi A ⟨j, hj⟩).symm
    _ = (rhoPi A')[piDst ⟨j, hj⟩] := by rw [h]
    _ = rotl64 A'[j] RHO[j] := getElem_rhoPi A' ⟨j, hj⟩

/-! ### Theta can be undone (R112): the column parities after it determine those before it

On the parities theta acts as a map `mixParities 1 1`. Over one bit the cross terms of its square cancel, so squaring it doubles
both distances. Six squarings bring the distance between places from 1 to 64, which is a whole turn, and what is left acts on
the five columns of one place. -/

/-- Column `x` gains column `x - a`, and column `x + a` rotated by `n` places. -/
def mixParities (a : Fin 5) (n : Fin 64) (c : Fin 5 → Fin 64 → Bool) : Fin 5 → Fin 64 → Bool :=
  fun x z => (c x z).xor ((c (x - a) z).xor (c (x + a) (z - n)))

theorem mixParities_mixParities (a : Fin 5) (n : Fin 64) (c : Fin 5 → Fin 64 → Bool) :
    mixParities a n (mixParities a n c) = mixParities (a + a) (n + n) c := by
  funext x z
  simp only [mixParities, sub_sub, add_sub_cancel_right, sub_add_cancel, add_assoc]
  simp [Bool.xor_left_comm]

theorem mixParities_injective_of_double {a : Fin 5} {n : Fin 64}
    (h : Function.Injective (mixParities (a + a) (n + n))) : Function.Injective (mixParities a n) := by
  have twice : mixParities a n ∘ mixParities a n = mixParities (a + a) (n + n) :=
    funext (mixParities_mixParities a n)
  exact Function.Injective.of_comp (twice ▸ h)

/-- The map without rotation, on the five columns of one place. -/
def mixSlice (c : Fin 5 → Bool) : Fin 5 → Bool :=
  fun x => (c x).xor ((c (x - 4)).xor (c (x + 4)))

theorem mixSlice_injective : Function.Injective mixSlice := by decide

theorem mixParities_four_zero_injective : Function.Injective (mixParities 4 0) := by
  intro c c' h
  have slice (z : Fin 64) : (fun x => c x z) = fun x => c' x z := by
    apply mixSlice_injective
    funext x
    simpa [mixParities, mixSlice] using congrFun (congrFun h x) z
  funext x z
  exact congrFun (slice z) x

theorem mixParities_one_one_injective : Function.Injective (mixParities 1 1) :=
  have h32 : Function.Injective (mixParities 2 32) := mixParities_injective_of_double mixParities_four_zero_injective
  have h16 : Function.Injective (mixParities 1 16) := mixParities_injective_of_double h32
  have h8 : Function.Injective (mixParities 3 8) := mixParities_injective_of_double h16
  have h4 : Function.Injective (mixParities 4 4) := mixParities_injective_of_double h8
  have h2 : Function.Injective (mixParities 2 2) := mixParities_injective_of_double h4
  mixParities_injective_of_double h2

/-- The bits of the column parities. -/
def parityBits (A : Lanes) : Fin 5 → Fin 64 → Bool :=
  fun x z => ((thetaC A)[x]).getLsbD z

theorem parityBits_apply (A : Lanes) (x : Fin 5) (z : Fin 64) :
    parityBits A x z =
      (((((laneAt A x).getLsbD z).xor ((laneAt A (x + 5)).getLsbD z)).xor ((laneAt A (x + 10)).getLsbD z)).xor
        ((laneAt A (x + 15)).getLsbD z)).xor ((laneAt A (x + 20)).getLsbD z) := by
  simp only [parityBits, Fin.getElem_fin, getElem_thetaC A x.isLt, BitVec.getLsbD_xor]

/-- Every lane of column `x` gains the same two parities. -/
theorem getLsbD_laneAt_theta (A : Lanes) {x : Fin 5} (z : Fin 64) {i : Nat} (hi : i < 25) (hx : i % 5 = x) :
    (laneAt (theta A) i).getLsbD z =
      ((laneAt A i).getLsbD z).xor ((parityBits A (x - 1) z).xor (parityBits A (x + 1) (z - 1))) := by
  have before : ((x - 1 : Fin 5) : Nat) = (i % 5 + 4) % 5 := by rw [Fin.val_sub, hx, Nat.add_comm]; rfl
  have after : ((x + 1 : Fin 5) : Nat) = (i % 5 + 1) % 5 := by rw [Fin.val_add, hx]; rfl
  have below : ((z - 1 : Fin 64) : Nat) = (z + 63) % 64 := by rw [Fin.val_sub, Nat.add_comm]; rfl
  rw [laneAt_theta A hi, BitVec.getLsbD_xor, BitVec.getLsbD_xor, getLsbD_rotl64_one _ z.isLt]
  simp only [parityBits, Fin.getElem_fin, before, after, below]

theorem parityBits_theta (A : Lanes) : parityBits (theta A) = mixParities 1 1 (parityBits A) := by
  funext x z
  rw [parityBits_apply (theta A), mixParities, parityBits_apply A x]
  simp (disch := omega) only [getLsbD_laneAt_theta A (x := x) z]
  generalize (parityBits A (x - 1) z).xor (parityBits A (x + 1) (z - 1)) = gain
  cases gain <;> simp

theorem theta_injective : Function.Injective theta := by
  intro A A' h
  have parities : parityBits A = parityBits A' :=
    mixParities_one_one_injective (by rw [← parityBits_theta, h, parityBits_theta])
  apply lanes_ext
  intro i hi
  apply BitVec.eq_of_getLsbD_eq
  intro z hz
  have bit : (laneAt (theta A) i).getLsbD z = (laneAt (theta A') i).getLsbD z := by rw [h]
  rw [getLsbD_laneAt_theta A ⟨z, hz⟩ (x := ⟨i % 5, by omega⟩) hi rfl,
    getLsbD_laneAt_theta A' ⟨z, hz⟩ (x := ⟨i % 5, by omega⟩) hi rfl, parities] at bit
  exact Bool.xor_left_inj.1 bit

/-! ### The whole permutation -/

theorem keccakRound_injective (rc : Lane) : Function.Injective (keccakRound · rc) :=
  (iota_injective rc).comp (chi_injective.comp (rhoPi_injective.comp theta_injective))

theorem foldl_keccakRound_injective (rcs : List Lane) : Function.Injective (rcs.foldl keccakRound) := by
  induction rcs with
  | nil => exact Function.injective_id
  | cons rc rcs ih => exact ih.comp (keccakRound_injective rc)

theorem keccakRounds_injective : Function.Injective keccakRounds := foldl_keccakRound_injective RC.toList

theorem laneSwap_injective (storage : LaneStorage) : Function.Injective (laneSwap storage) :=
  Function.Involutive.injective (laneSwap_laneSwap storage)

theorem keccakF_injective (storage : LaneStorage) : Function.Injective (keccakF storage) := by
  intro W W' h
  rw [keccakF, keccakF] at h
  exact laneSwap_injective storage (keccakRounds_injective (laneSwap_injective storage h))

theorem finite_lanes : Finite Lanes :=
  Finite.of_injective (fun (A : Lanes) (i : Fin 25) => A[i]) fun _ _ h =>
    Vector.ext fun i hi => congrFun h ⟨i, hi⟩

/-- Settles O19: each stage can be undone, and there are finitely many states. -/
theorem keccakFIsBijective : Obligations.KeccakFIsBijective := by
  intro storage
  have finite := finite_lanes
  exact Finite.injective_iff_bijective.1 (keccakF_injective storage)

end Sys2Proof.Machine
end

section
/-! The six commands (spec/41_sponge_commands.md R141 to R146): what each answers, what it changes and what it leaves; and
the phase table (R147), by which a command is refused with nothing changed or completes in the table's next phase. -/
namespace Sys2Proof.Machine

/-! ### The context and its bytes (R141, R146) -/

/-- Settles O21: the word is the command's encoding, a legal length creates the context, and any other is `MISUSE`. -/
theorem initCreatesTheContext : Obligations.InitCreatesTheContext := by
  intro outLen s
  refine ⟨decodeAfterEncodeIsIdentity (.init outLen), fun legal => ?_, execInit_misuse outLen s⟩
  have run : exec (.init outLen) s = .next _ := execInit_ok outLen s legal
  refine ⟨_, run, rfl, fun j => ?_, rfl, toNat_rateOf outLen legal, rfl, rfl, exec_surroundings run⟩
  rw [State.byte, State.lanes_offer, State.lanes_created, byteAt_zeroLanes]

/-- Settles O26, one clause for each outcome of the two checks. -/
theorem digestReadAnswersOneByte : Obligations.DigestReadAnswersOneByte := by
  intro index s
  refine ⟨decodeAfterEncodeIsIdentity (.digestRead index), fun wrong => if_neg wrong, fun digest tooLarge => ?_,
    fun digest legal => ?_⟩
  · exact execDigestRead_misuse index s digest (Nat.not_lt.2 tooLarge)
  · rw [← responseWord_ok]
    exact execDigestRead_ok index s digest legal

/-! ### Absorbing and finalizing (R142 to R144) -/

/-- Settles O22: under the invariant the advanced cursor does not wrap, so `State.closeBlock_absorbed` tells the byte that
fills the block from any other. -/
theorem absorbTakesOneByte : Obligations.AbsorbTakesOneByte := by
  intro data s
  refine ⟨decodeAfterEncodeIsIdentity (.absorb data), fun wrong => if_neg wrong, fun absorbing inv => ?_⟩
  obtain ⟨⟨-, hrate⟩, below⟩ := (State.inv_iff_of_absorbing absorbing).1 inv
  have inState : s.cursor < 200 := show s.position.toNat < 200 by omega
  have run : exec (.absorb data) s = .next _ := execAbsorb_ok data s absorbing
  refine ⟨_, run, rfl, by simpa using absorbing, by simp, by simp, exec_surroundings run, ?_⟩
  rw [State.closeBlock_absorbed s data (by omega)]
  constructor
  · intro more
    rw [if_neg more.ne]
    exact ⟨(s.xorByte s.cursor data).advance_toNat (show s.position.toNat < 255 by omega),
      s.byte_xorByte_same _ data inState, fun j => s.byte_xorByte_other _ j data⟩
  · intro full
    rw [if_pos full]
    exact ⟨rfl, xorByteAt s.lanes s.cursor data, by simp, byteAt_xorByteAt_same _ _ data inState,
      fun j => byteAt_xorByteAt_other _ _ j data⟩

/-- What a finalize that enters phase `p` leaves, whichever suffix byte it adds (R143, R144): under the invariant both bytes
it XORs at exist. -/
theorem finalize_injects_and_permutes {i : Instr} {s : State} {suffix : Byte} {p : Phase} (absorbing : s.phase = .absorbing)
    (inv : s.Inv) (run : exec i s = .next ((s.finalize suffix p).offer (responseWord .ok 0x00))) :
    ∃ t, exec i s = .next t ∧ t.rsp = some 0x0000 ∧ t.phase = p ∧ t.position = 0 ∧ t.L = s.L ∧ t.rate = s.rate ∧
      SameSurroundings s t ∧ ∃ A : Lanes, t.lanes = keccakRounds A ∧ ∀ j, byteAt A j =
        s.byte j ^^^ (if j = s.position.toNat then suffix else 0x00) ^^^ (if j = s.rate.toNat - 1 then 0x80 else 0x00) := by
  obtain ⟨⟨-, hrate⟩, below⟩ := (State.inv_iff_of_absorbing absorbing).1 inv
  have cursorInState : s.cursor < 200 := show s.position.toNat < 200 by omega
  have padInState : s.padAddress < 200 := show s.rate.toNat - 1 < 200 by omega
  refine ⟨_, run, rfl, rfl, rfl, rfl, rfl, exec_surroundings run, _, s.lanes_finalize suffix p, fun j => ?_⟩
  rw [byteAt_xorByteAt _ _ _ _ padInState, byteAt_xorByteAt _ _ _ _ cursorInState]
  rfl

/-- Settles O23, the finalize with suffix 0x06 into `DIGEST`. -/
theorem finalSha3InjectsAndPermutes : Obligations.FinalSha3InjectsAndPermutes := fun s =>
  ⟨decodeAfterEncodeIsIdentity .finalSha3, fun wrong => if_neg wrong,
    fun absorbing inv => finalize_injects_and_permutes absorbing inv (execFinalSha3_ok s absorbing)⟩

/-- Settles O24, the finalize with suffix 0x1F into `SQUEEZING`. -/
theorem finalShakeInjectsAndPermutes : Obligations.FinalShakeInjectsAndPermutes := fun s =>
  ⟨decodeAfterEncodeIsIdentity .finalShake, fun wrong => if_neg wrong,
    fun absorbing inv => finalize_injects_and_permutes absorbing inv (execFinalShake_ok s absorbing)⟩

/-! ### Squeezing (R145) -/

/-- Settles O25: the block is opened as it is, or permuted and read from byte 0. -/
theorem squeezeReadsOneByte : Obligations.SqueezeReadsOneByte := by
  intro s
  refine ⟨decodeAfterEncodeIsIdentity .squeeze, fun wrong => if_neg wrong, fun squeezing inv => ?_⟩
  obtain ⟨⟨-, hrate⟩, -⟩ := (State.inv_iff_of_squeezing squeezing).1 inv
  have run : exec .squeeze s = .next _ := execSqueeze_ok s squeezing
  refine ⟨_, run, by simpa using squeezing, by simp, by simp, exec_surroundings run, fun unread => ?_, fun used => ?_⟩
  · rw [State.openBlock_open s (BitVec.not_le.2 unread)]
    exact ⟨congrArg some (responseWord_ok _), s.advance_toNat (by omega), fun _ => rfl⟩
  · rw [State.openBlock_used s used]
    exact ⟨by simp, congrArg some (responseWord_ok _), rfl⟩

/-! ### The phase table (R147) -/

/-- The row of `ABSORB` and of the two finalize commands: they need `ABSORBING`. -/
theorem statusTable_of_needs_absorbing {i : Instr}
    (hi : (∃ data, i = .absorb data) ∨ i = .finalSha3 ∨ i = .finalShake) (p : Phase) (L : Byte) :
    statusTable p L i = if p = .absorbing then .ok else .invalidState := by
  obtain ⟨_, rfl⟩ | rfl | rfl := hi <;> cases p <;> rfl

theorem statusTable_squeeze (p : Phase) (L : Byte) :
    statusTable p L .squeeze = if p = .squeezing then .ok else .invalidState := by
  cases p <;> rfl

theorem statusTable_digestRead (p : Phase) (L index : Byte) :
    statusTable p L (.digestRead index) =
      if p = .digest then if index.toNat < L.toNat then .ok else .misuse else .invalidState := by
  cases p <;> rfl

/-- `t` is what the table lets command `i` leave of `s`: the cell's status, and with `OK` the next phase, with any other
status a new response alone. -/
def FollowsTable (i : Instr) (s t : State) : Prop :=
  t.rsp.map responseStatus = some (statusTable s.phase s.L i).code ∧
    (statusTable s.phase s.L i = .ok → t.phase = phaseAfterOk s.phase i) ∧
    (statusTable s.phase s.L i ≠ .ok → t = { s with rsp := t.rsp })

theorem followsTable_of_completes {i : Instr} {s t : State} {d : Byte} (cell : statusTable s.phase s.L i = .ok)
    (answer : t.rsp = some (responseWord .ok d)) (phase : t.phase = phaseAfterOk s.phase i) : FollowsTable i s t :=
  ⟨by simp [answer, cell], fun _ => phase, fun refused => absurd cell refused⟩

theorem followsTable_of_refused {i : Instr} {s : State} {status : Status} (cell : statusTable s.phase s.L i = status)
    (refused : status ≠ .ok) : FollowsTable i s (s.offer (responseWord status 0x00)) :=
  ⟨by simp [cell], fun ok => absurd (cell.symm.trans ok) refused, fun _ => rfl⟩

/-- Every command in every state, by the conditions of its row. -/
theorem exec_followsTable (i : Instr) (s : State) : ∃ t, exec i s = .next t ∧ FollowsTable i s t := by
  cases i with
  | init outLen =>
    by_cases legal : outLen.toNat ≤ 99
    · exact ⟨_, execInit_ok outLen s legal, followsTable_of_completes (if_pos legal) rfl rfl⟩
    · exact ⟨_, execInit_misuse outLen s (Nat.lt_of_not_le legal), followsTable_of_refused (if_neg legal) (by decide)⟩
  | absorb data =>
    have row := statusTable_of_needs_absorbing (.inl ⟨data, rfl⟩) s.phase s.L
    by_cases absorbing : s.phase = .absorbing
    · exact ⟨_, execAbsorb_ok data s absorbing,
        followsTable_of_completes (row.trans (if_pos absorbing)) rfl (by simp [phaseAfterOk])⟩
    · exact ⟨_, if_neg absorbing, followsTable_of_refused (row.trans (if_neg absorbing)) (by decide)⟩
  | finalSha3 =>
    have row := statusTable_of_needs_absorbing (.inr (.inl rfl)) s.phase s.L
    by_cases absorbing : s.phase = .absorbing
    · exact ⟨_, execFinalSha3_ok s absorbing, followsTable_of_completes (row.trans (if_pos absorbing)) rfl rfl⟩
    · exact ⟨_, if_neg absorbing, followsTable_of_refused (row.trans (if_neg absorbing)) (by decide)⟩
  | finalShake =>
    have row := statusTable_of_needs_absorbing (.inr (.inr rfl)) s.phase s.L
    by_cases absorbing : s.phase = .absorbing
    · exact ⟨_, execFinalShake_ok s absorbing, followsTable_of_completes (row.trans (if_pos absorbing)) rfl rfl⟩
    · exact ⟨_, if_neg absorbing, followsTable_of_refused (row.trans (if_neg absorbing)) (by decide)⟩
  | squeeze =>
    have row := statusTable_squeeze s.phase s.L
    by_cases squeezing : s.phase = .squeezing
    · exact ⟨_, execSqueeze_ok s squeezing,
        followsTable_of_completes (row.trans (if_pos squeezing)) rfl (by simp [phaseAfterOk])⟩
    · exact ⟨_, if_neg squeezing, followsTable_of_refused (row.trans (if_neg squeezing)) (by decide)⟩
  | digestRead index =>
    have row := statusTable_digestRead s.phase s.L index
    by_cases digest : s.phase = .digest
    · rw [if_pos digest] at row
      by_cases legal : index.toNat < s.L.toNat
      · exact ⟨_, execDigestRead_ok index s digest legal, followsTable_of_completes (row.trans (if_pos legal)) rfl rfl⟩
      · exact ⟨_, execDigestRead_misuse index s digest legal,
          followsTable_of_refused (row.trans (if_neg legal)) (by decide)⟩
    · exact ⟨_, if_neg digest, followsTable_of_refused (row.trans (if_neg digest)) (by decide)⟩

/-- Outside `ABSORBING` a command that the table completes is `INIT` or keeps the phase. -/
theorem init_or_phaseAfterOk_eq {i : Instr} {p : Phase} {L : Byte} (notAbsorbing : p ≠ .absorbing)
    (ok : statusTable p L i = .ok) : (∃ outLen, i = .init outLen) ∨ phaseAfterOk p i = p := by
  cases i with
  | init outLen => exact .inl ⟨outLen, rfl⟩
  | finalSha3 =>
    rw [statusTable_of_needs_absorbing (.inr (.inl rfl)), if_neg notAbsorbing] at ok
    cases ok
  | finalShake =>
    rw [statusTable_of_needs_absorbing (.inr (.inr rfl)), if_neg notAbsorbing] at ok
    cases ok
  | absorb _ | squeeze | digestRead _ => exact .inr rfl

/-- A command that leaves `DIGEST` or `SQUEEZING` is `INIT`: any other is refused or keeps the phase. -/
theorem init_of_phase_ne {i : Instr} {s t : State} (follows : FollowsTable i s t) (notAbsorbing : s.phase ≠ .absorbing)
    (moved : t.phase ≠ s.phase) : ∃ outLen, i = .init outLen := by
  obtain ⟨-, completes, refused⟩ := follows
  by_cases ok : statusTable s.phase s.L i = .ok
  · exact (init_or_phaseAfterOk_eq notAbsorbing ok).resolve_right fun kept => moved ((completes ok).trans kept)
  · exact absurd (congrArg State.phase (refused ok)) moved

/-- Settles O27, from `exec_followsTable`; the illegal column is `ILLEGAL` in every phase. -/
theorem phaseTable : Obligations.PhaseTable := by
  refine ⟨fun i s => ?_, fun w s illegal => (illegalWordsAreExactly w).2 s illegal⟩
  obtain ⟨t, run, follows⟩ := exec_followsTable i s
  have ⟨answer, completes, refused⟩ := follows
  refine ⟨t, run, answer, completes, refused, fun phase => init_of_phase_ne follows ?_⟩
  obtain digest | squeezing := phase
  · simp [digest]
  · simp [squeezing]

/-- Settles O29: an illegal word is answered alone, and a command answered with another status than `OK` has another cell of
the table. -/
theorem refusedWordChangesNothing : Obligations.RefusedWordChangesNothing := by
  intro w s t run refused
  obtain ⟨i, -, e⟩ | ⟨_, -, e⟩ := runWord_cases w s
  · obtain ⟨u, e', answer, -, kept⟩ := exec_followsTable i s
    obtain rfl := Host.Outcome.next.inj (run.symm.trans (e.trans e'))
    exact kept fun ok => refused (by rw [answer, ok]; rfl)
  · obtain rfl := Host.Outcome.next.inj (run.symm.trans e)
    rfl

end Sys2Proof.Machine
end

section
/-! From a command word to its command: at a transfer of the ports (spec/70_reset_and_hazards.md R203), in a sequence of
transactions, and where a word of the sequence is refused (spec/41_sponge_commands.md R140, R148 (e)). -/
namespace Sys2Proof.Machine

theorem runWord_of_decode {w : CommandWord} {i : Instr} (decoded : decode w = .ok i) (s : State) :
    runWord w s = exec i s := by
  simp only [runWord, decoded]

/-! ### The transfer of a command (R203) -/

/-- At a command transfer the step runs the word, with the edge passed. -/
theorem step_of_command {s : State} (owner : s.edge.driver = .owner) (noReset : s.edge.rst = false)
    (valid : s.edge.cmdValid = true) (free : s.rsp = none) : step s = runWord s.edge.cmdData s.passEdge := by
  have transfer : s.portEvent = .command s.edge.cmdData := by
    simp [State.portEvent, State.cmdReady, owner, noReset, valid, free]
  rw [step, transfer]

@[simp] theorem State.withFetchWord_rsp (s : State) (nbits w : Nat) : (s.withFetchWord nbits w).rsp = none :=
  s.takeResponse_rsp

/-- The next edge offers the word. -/
@[simp] theorem State.withFetchWord_edge (s : State) (w : CommandWord) :
    (s.withFetchWord 32 w.toNat).edge = sendEdge w := by
  show sendEdge (BitVec.ofNat 32 (w.toNat % 2 ^ 32)) = sendEdge w
  rw [Nat.mod_eq_of_lt w.isLt, BitVec.ofNat_toNat, BitVec.setWidth_eq]

@[simp] theorem State.withFetchWord_passEdge (s : State) (nbits w : Nat) :
    (s.withFetchWord nbits w).passEdge = s.takeResponse := by
  show { s.takeResponse with host := s.host } = s.takeResponse
  rw [← s.takeResponse_host]

/-- Settles O37: both clauses are a command transfer, the second by the edge `withFetchWord` puts first. -/
theorem stepRunsTheDecodedCommand : Obligations.StepRunsTheDecodedCommand := by
  constructor
  · intro s i owner noReset valid free decoded
    rw [step_of_command owner noReset valid free, runWord_of_decode decoded]
  · intro s w i decoded
    have edge := s.withFetchWord_edge w
    rw [step_of_command (by rw [edge]; rfl) (by rw [edge]; rfl) (by rw [edge]; rfl) (by simp), edge,
      State.withFetchWord_passEdge]
    exact runWord_of_decode decoded _

/-- Settles O38: the transfer runs the word, and an illegal word is answered `ILLEGAL`. -/
theorem stepAnswersAnIllegalWord : Obligations.StepAnswersAnIllegalWord := by
  intro s e owner noReset valid free illegal
  rw [step_of_command owner noReset valid free]
  exact (illegalWordsAreExactly _).2 _ ⟨e, illegal⟩

/-! ### Transactions of encoded commands -/

theorem runWord_encode (i : Instr) (s : State) : runWord (encode i) s = exec i s :=
  runWord_of_decode (decodeAfterEncodeIsIdentity i) s

/-- Settles O45, by induction on the commands: each word is run as the command it encodes. -/
theorem transactionsRunTheCommands : Obligations.TransactionsRunTheCommands := by
  intro is s
  induction is generalizing s with
  | nil => rfl
  | cons i is ih =>
    rw [List.map_cons, transactAll, transact, runWord_encode, runCommands]
    cases exec i s with
    | next t => exact ih t.takeResponse
    | fault r => rfl
    | refused r => rfl

/-! ### The responses taken are the host's record, which no word reads -/

/-- The state with another record of responses taken. -/
def State.setTaken (s : State) (rs : List ResponseWord) : State := { s with taken := rs }

theorem State.closeBlock_setTaken (s : State) (rs : List ResponseWord) :
    (s.setTaken rs).closeBlock = s.closeBlock.setTaken rs := by
  by_cases full : s.position = s.rate
  · rw [State.closeBlock_full s full, State.closeBlock_full (s.setTaken rs) full]
    rfl
  · rw [State.closeBlock_open s full, State.closeBlock_open (s.setTaken rs) full]

theorem State.openBlock_setTaken (s : State) (rs : List ResponseWord) :
    (s.setTaken rs).openBlock = s.openBlock.setTaken rs := by
  by_cases used : s.rate ≤ s.position
  · rw [State.openBlock_used s used, State.openBlock_used (s.setTaken rs) used]
    rfl
  · rw [State.openBlock_open s used, State.openBlock_open (s.setTaken rs) used]

/-- A command's checks and updates go as with the other record. -/
theorem sameOutcome_exec_setTaken (i : Instr) (s : State) (rs : List ResponseWord) :
    SameOutcome (fun t u => u = t.setTaken rs) (exec i s) (exec i (s.setTaken rs)) := by
  cases i with
  | init outLen =>
    show SameOutcome _ (execInit outLen s) (execInit outLen (s.setTaken rs))
    exact sameOutcome_ite rfl rfl
  | absorb data =>
    show SameOutcome _ (execAbsorb data s) (execAbsorb data (s.setTaken rs))
    have closed := State.closeBlock_setTaken (s.xorByte s.cursor data).advance rs
    exact sameOutcome_ite (congrArg (State.offer · _) closed) rfl
  | finalSha3 =>
    show SameOutcome _ (execFinalSha3 s) (execFinalSha3 (s.setTaken rs))
    exact sameOutcome_ite rfl rfl
  | finalShake =>
    show SameOutcome _ (execFinalShake s) (execFinalShake (s.setTaken rs))
    exact sameOutcome_ite rfl rfl
  | squeeze =>
    show SameOutcome _ (execSqueeze s) (execSqueeze (s.setTaken rs))
    rw [execSqueeze, execSqueeze, State.openBlock_setTaken]
    exact sameOutcome_ite rfl rfl
  | digestRead index =>
    show SameOutcome _ (execDigestRead index s) (execDigestRead index (s.setTaken rs))
    exact sameOutcome_ite (sameOutcome_ite rfl rfl) rfl

theorem sameOutcome_runWord_setTaken (w : CommandWord) (s : State) (rs : List ResponseWord) :
    SameOutcome (fun t u => u = t.setTaken rs) (runWord w s) (runWord w (s.setTaken rs)) := by
  unfold runWord
  cases decode w with
  | ok i => exact sameOutcome_exec_setTaken i s rs
  | error e => rfl

/-- A transaction takes the same response whichever record it joins. -/
theorem transact_setTaken (w : CommandWord) (s : State) (rs : List ResponseWord) :
    ∃ t r, transact w s = .next t ∧ t.taken = s.taken ++ [r] ∧
      transact w (s.setTaken rs) = .next (t.setTaken (rs ++ [r])) := by
  obtain ⟨t, r, run, answer, -, e⟩ := transact_cases w s
  obtain ⟨u, r', run', answer', -, e'⟩ := transact_cases w (s.setTaken rs)
  have same := sameOutcome_runWord_setTaken w s rs
  rw [run, run'] at same
  obtain rfl : u = t.setTaken rs := same
  obtain rfl : r' = r := Option.some.inj (answer'.symm.trans answer)
  exact ⟨_, _, e, rfl, e'⟩

/-- And so does a sequence of words. -/
theorem transactAll_setTaken (ws : List CommandWord) (s : State) (rs : List ResponseWord) :
    ∃ t new, transactAll ws s = .next t ∧ t.taken = s.taken ++ new ∧
      transactAll ws (s.setTaken rs) = .next (t.setTaken (rs ++ new)) := by
  induction ws generalizing s rs with
  | nil => exact ⟨s, [], rfl, by simp, by simp [transactAll]⟩
  | cons w ws ih =>
    obtain ⟨u, r, run, taken, run'⟩ := transact_setTaken w s rs
    obtain ⟨t, new, runs, takenT, runs'⟩ := ih u (rs ++ [r])
    refine ⟨t, r :: new, (transactAll_cons run ws).trans runs, by simp [takenT, taken], ?_⟩
    simpa using (transactAll_cons run' ws).trans runs'

/-! ### A refused word (R148 (e), R187) -/

/-- A transaction answered with another status than `OK` changes the record alone. -/
theorem transact_of_refused {w : CommandWord} {s t : State} {r : ResponseWord} (free : s.rsp = none)
    (run : transact w s = .next t) (taken : t.taken = s.taken ++ [r]) (refused : responseStatus r ≠ 0) :
    t = s.setTaken (s.taken ++ [r]) := by
  obtain ⟨u, r', runW, answer, takenU, e⟩ := transact_cases w s
  obtain rfl := Host.Outcome.next.inj (run.symm.trans e)
  obtain rfl : r' = r := by simpa using taken
  have kept : u = { s with rsp := u.rsp } :=
    refusedWordChangesNothing w s u runW (by simpa [answer] using refused)
  rw [kept, ← free]
  rfl

/-- Settles O51: the refused word changes the record alone, and the words after it run to the same state and take the same
responses whichever record they join. -/
theorem refusedWordLeavesNoTrace : Obligations.RefusedWordLeavesNoTrace := by
  rintro w ws s t free run ⟨r, taken, refused⟩
  obtain ⟨v, rs, runs, takenV, runs'⟩ := transactAll_setTaken ws s (s.taken ++ [r])
  rw [← transact_of_refused free run taken refused] at runs'
  exact ⟨_, v, r, rs, runs', runs, rfl, by simp [State.setTaken], takenV⟩

end Sys2Proof.Machine
end

section
/-! Absorbing in block form (spec/41_sponge_commands.md R148 (c)): the message's whole blocks, each XORed in and permuted, and
the rest XORed in. What one byte more does to it, and the padding that ends it (R143, R144). -/
namespace Sys2Proof.Machine

/-- Counting one more within blocks of `r`: it completes a block, or it stays inside one. -/
theorem succ_div_mod (n : Nat) {r : Nat} (hr : 0 < r) :
    (n % r + 1 = r ∧ (n + 1) / r = n / r + 1 ∧ (n + 1) % r = 0) ∨
      (n % r + 1 < r ∧ (n + 1) / r = n / r ∧ (n + 1) % r = n % r + 1) := by
  have split := Nat.mod_add_div n r
  obtain full | more : n % r + 1 = r ∨ n % r + 1 < r := by
    have := Nat.mod_lt n hr
    omega
  · exact .inl ⟨full, (Nat.div_mod_unique hr).2 ⟨by rw [Nat.mul_add]; omega, hr⟩⟩
  · exact .inr ⟨more, (Nat.div_mod_unique hr).2 ⟨by omega, more⟩⟩

/-! ### A block XORed in, byte by byte -/

theorem laneByte_xor (v w : Lane) (k : Nat) : laneByte (v ^^^ w) k = laneByte v k ^^^ laneByte w k :=
  BitVec.extractLsb'_xor

theorem laneAt_xorBlock (A : Lanes) (block : List Byte) {i : Nat} (hi : i < 25) :
    laneAt (xorBlock A block) i = laneAt A i ^^^ laneOfBytes fun k => block.getD (8 * i + k) 0x00 := by
  simp [laneAt, xorBlock, hi]

theorem byteAt_xorBlock (A : Lanes) (block : List Byte) {j : Nat} (hj : j < 200) :
    byteAt (xorBlock A block) j = byteAt A j ^^^ block.getD j 0x00 := by
  rw [byteAt, laneAt_xorBlock _ _ (by omega), laneByte_xor, laneByte_laneOfBytes _ _ (by omega), Nat.div_add_mod]
  rfl

theorem xorBlock_nil (A : Lanes) : xorBlock A [] = A :=
  lanes_ext_bytes fun j hj => by simp [byteAt_xorBlock A [] hj]

/-- A block that is a byte longer: the byte is XORed in at its place. -/
theorem xorBlock_append_singleton (A : Lanes) {block : List Byte} (d : Byte) (inState : block.length < 200) :
    xorBlock A (block ++ [d]) = xorByteAt (xorBlock A block) block.length d := by
  refine lanes_ext_bytes fun j hj => ?_
  rw [byteAt_xorBlock _ _ hj, byteAt_xorByteAt _ _ _ _ inState, byteAt_xorBlock _ _ hj, BitVec.xor_assoc]
  congr 1
  obtain before | rfl | after := Nat.lt_trichotomy j block.length
  · rw [List.getD_append _ _ _ _ before, if_neg before.ne]
    simp
  · simp
  · rw [List.getD_eq_default _ _ (by simpa using after), List.getD_eq_default _ _ after.le, if_neg after.ne']
    simp

/-- Zero bytes at the end of a block change nothing. -/
theorem xorBlock_append_zeros (A : Lanes) (block : List Byte) (n : Nat) :
    xorBlock A (block ++ List.replicate n 0x00) = xorBlock A block := by
  refine lanes_ext_bytes fun j hj => ?_
  rw [byteAt_xorBlock _ _ hj, byteAt_xorBlock _ _ hj]
  congr 1
  by_cases before : j < block.length
  · exact List.getD_append _ _ _ _ before
  · have after : block.length ≤ j := Nat.le_of_not_lt before
    rw [List.getD_append_right _ _ _ _ after, List.getD_eq_default _ _ after, List.getD_eq_getElem?_getD,
      List.getElem?_getD_replicate_default_eq]

theorem xorByteAt_xorByteAt (A : Lanes) {j : Nat} (b c : Byte) (inState : j < 200) :
    xorByteAt (xorByteAt A j b) j c = xorByteAt A j (b ^^^ c) := by
  refine lanes_ext_bytes fun m _ => ?_
  simp only [byteAt_xorByteAt _ _ _ _ inState, BitVec.xor_assoc]
  split <;> simp

/-- The padding that ends a block: the suffix byte after the block's bytes and 0x80 at its last place (R143, R144). -/
theorem xorBlock_append_padTail (A : Lanes) {rate : Nat} {block : List Byte} (suffix : Byte)
    (short : block.length < rate) (inState : rate ≤ 200) :
    xorBlock A (block ++ padTail suffix (rate - block.length)) =
      xorByteAt (xorByteAt (xorBlock A block) block.length suffix) (rate - 1) 0x80 := by
  unfold padTail
  split
  next one =>
    obtain rfl : rate = block.length + 1 := by omega
    rw [xorBlock_append_singleton _ _ (by omega), Nat.add_sub_cancel, xorByteAt_xorByteAt _ _ _ (by omega)]
  next many =>
    have place : (block ++ [suffix] ++ List.replicate (rate - block.length - 2) 0x00).length = rate - 1 := by
      simp
      omega
    rw [← List.cons_append, ← List.append_assoc, List.append_cons block, xorBlock_append_singleton _ _ (by omega), place,
      xorBlock_append_zeros, xorBlock_append_singleton _ _ (by omega)]

theorem length_padTail (suffix : Byte) {q : Nat} (hq : 0 < q) : (padTail suffix q).length = q := by
  unfold padTail
  split
  next one => exact one.symm
  next many =>
    simp
    omega

/-! ### Whole blocks -/

/-- Blocks after blocks, `n` of them in `whole`. -/
theorem absorbBlocks_append (rate k : Nat) {n : Nat} (A : Lanes) {whole : List Byte} (rest : List Byte)
    (blocks : whole.length = rate * n) :
    absorbBlocks rate (n + k) A (whole ++ rest) = absorbBlocks rate k (absorbBlocks rate n A whole) rest := by
  induction n generalizing A whole with
  | zero =>
    obtain rfl : whole = [] := List.eq_nil_of_length_eq_zero blocks
    rw [Nat.zero_add]
    rfl
  | succ n ih =>
    have oneBlock : rate ≤ whole.length := by rw [blocks]; exact Nat.le_mul_of_pos_right _ n.succ_pos
    rw [Nat.succ_add, absorbBlocks, absorbBlocks, List.take_append_of_le_length oneBlock,
      List.drop_append_of_le_length oneBlock]
    exact ih _ (by rw [List.length_drop, blocks, Nat.mul_succ, Nat.add_sub_cancel])

/-- One block more is XORed in and permuted. -/
theorem absorbBlocks_succ {rate n : Nat} (A : Lanes) {whole block : List Byte} (blocks : whole.length = rate * n)
    (size : block.length = rate) :
    absorbBlocks rate (n + 1) A (whole ++ block) = keccakRounds (xorBlock (absorbBlocks rate n A whole) block) := by
  rw [absorbBlocks_append rate 1 A block blocks, ← size]
  simp [absorbBlocks]

/-- The lanes of a message absorbed into the all-zero state in block form. -/
def absorbedLanes (rate : Nat) (message : List Byte) : Lanes :=
  xorBlock (absorbBlocks rate (message.length / rate) zeroLanes message)
    (message.drop (rate * (message.length / rate)))

/-- A message is whole blocks and a rest shorter than a block. -/
theorem exists_blocks (message : List Byte) (rate : Nat) :
    ∃ whole rest, message = whole ++ rest ∧ whole.length = rate * (message.length / rate) ∧
      rest.length = message.length % rate := by
  have split := Nat.mod_add_div message.length rate
  refine ⟨message.take (rate * (message.length / rate)), message.drop (rate * (message.length / rate)),
    (List.take_append_drop _ _).symm, ?_, ?_⟩
  · rw [List.length_take]
    omega
  · rw [List.length_drop]
    omega

theorem absorbedLanes_eq {rate n : Nat} {whole rest : List Byte} (blocks : whole.length = rate * n)
    (short : rest.length < rate) :
    absorbedLanes rate (whole ++ rest) = xorBlock (absorbBlocks rate n zeroLanes whole) rest := by
  have count : (whole ++ rest).length / rate = n := by
    rw [List.length_append, blocks, Nat.mul_add_div (by omega), Nat.div_eq_of_lt short, Nat.add_zero]
  rw [absorbedLanes, count, ← blocks, List.drop_left]
  exact congrArg (xorBlock · rest) (absorbBlocks_append rate 0 zeroLanes rest blocks)

@[simp] theorem absorbedLanes_nil {rate : Nat} (hr : 0 < rate) : absorbedLanes rate [] = zeroLanes := by
  have empty : absorbedLanes rate ([] ++ []) = _ := absorbedLanes_eq (n := 0) rfl hr
  rwa [xorBlock_nil] at empty

/-- A byte that does not fill its block is XORed in. -/
theorem absorbedLanes_append_of_open {rate : Nat} (inState : rate ≤ 200) {message : List Byte} (d : Byte)
    (more : message.length % rate + 1 < rate) :
    absorbedLanes rate (message ++ [d]) = xorByteAt (absorbedLanes rate message) (message.length % rate) d := by
  obtain ⟨whole, rest, e, blocks, size⟩ := exists_blocks message rate
  rw [← size] at more ⊢
  rw [e, List.append_assoc, absorbedLanes_eq blocks (by simpa using more), absorbedLanes_eq blocks (by omega),
    xorBlock_append_singleton _ _ (by omega)]

/-- The byte that fills its block is XORed in, and the permutation runs. -/
theorem absorbedLanes_append_of_full {rate : Nat} (inState : rate ≤ 200) {message : List Byte} (d : Byte)
    (full : message.length % rate + 1 = rate) :
    absorbedLanes rate (message ++ [d]) =
      keccakRounds (xorByteAt (absorbedLanes rate message) (message.length % rate) d) := by
  obtain ⟨whole, rest, e, blocks, size⟩ := exists_blocks message rate
  rw [← size] at full ⊢
  have filled : (whole ++ (rest ++ [d])).length = rate * (message.length / rate + 1) := by
    rw [← List.append_assoc, List.length_append, List.length_append, blocks, Nat.mul_succ, ← full, Nat.add_assoc]
    rfl
  have closed : absorbedLanes rate (whole ++ (rest ++ [d]) ++ []) = _ :=
    absorbedLanes_eq filled (show 0 < rate by omega)
  rw [List.append_nil, xorBlock_nil, absorbBlocks_succ _ blocks (by simpa using full),
    xorBlock_append_singleton _ _ (by omega), ← absorbedLanes_eq blocks (by omega)] at closed
  rwa [e, List.append_assoc]

/-- The state after the whole padded message: both padding bytes are XORed into the block that is open, and the permutation
runs (R143, R144, R149). -/
theorem spongeState_eq {rate : Nat} (hr : 0 < rate) (inState : rate ≤ 200) (suffix : Byte) (message : List Byte) :
    spongeState rate suffix message =
      keccakRounds (xorByteAt (xorByteAt (absorbedLanes rate message) (message.length % rate) suffix) (rate - 1) 0x80) := by
  obtain ⟨whole, rest, e, blocks, size⟩ := exists_blocks message rate
  have short : rest.length < rate := size ▸ Nat.mod_lt _ hr
  have fills : (rest ++ padTail suffix (rate - rest.length)).length = rate := by
    rw [List.length_append, length_padTail suffix (by omega)]
    omega
  have padded : padMessage rate suffix message = whole ++ (rest ++ padTail suffix (rate - rest.length)) := by
    rw [padMessage, ← size, ← List.append_assoc, ← e]
  rw [spongeState, padded, absorbBlocks_succ _ blocks fills, xorBlock_append_padTail _ _ short inState,
    ← absorbedLanes_eq blocks short, ← e, size]

end Sys2Proof.Machine
end

section
/-! Runs of commands (spec/41_sponge_commands.md R148, R149): after `INIT` and the message's `ABSORB`s, after a finalize, and
after the `SQUEEZE`s that read the output. -/
namespace Sys2Proof.Machine

/-! ### Runs in parts -/

theorem runCommands_append {is : List Instr} {s t : State} (run : runCommands is s = .next t) (js : List Instr) :
    runCommands (is ++ js) s = runCommands js t := by
  rw [← transactionsRunTheCommands] at run ⊢
  rw [List.map_append, transactAll_append run, transactionsRunTheCommands]

theorem runCommands_singleton {i : Instr} {s t : State} (run : exec i s = .next t) :
    runCommands [i] s = .next t.takeResponse := by
  simp only [runCommands, run]

/-- A run with one command more. -/
theorem runCommands_append_singleton {is : List Instr} {i : Instr} {s t u : State} (run : runCommands is s = .next t)
    (last : exec i t = .next u) : runCommands (is ++ [i]) s = .next u.takeResponse :=
  (runCommands_append run [i]).trans (runCommands_singleton last)

/-! ### A message absorbed (R148 (c)) -/

/-- The context of length `outLen` with `message` absorbed. -/
structure State.HasAbsorbed (t : State) (outLen : Byte) (message : List Byte) : Prop where
  phase : t.phase = .absorbing
  length : t.L = outLen
  rate : t.rate.toNat = 200 - 2 * outLen.toNat
  position : t.position.toNat = message.length % t.rate.toNat
  lanes : t.lanes = absorbedLanes t.rate.toNat message

/-- The host taking the response leaves the context. -/
theorem State.HasAbsorbed.answered {t : State} {outLen : Byte} {message : List Byte} (h : t.HasAbsorbed outLen message)
    (r : ResponseWord) : (t.offer r).takeResponse.HasAbsorbed outLen message :=
  ⟨h.phase, h.length, h.rate, h.position, h.lanes⟩

theorem State.hasAbsorbed_created (s : State) {outLen : Byte} (legal : outLen.toNat ≤ 99) :
    (s.created outLen).HasAbsorbed outLen [] := by
  have rate : (s.created outLen).rate.toNat = 200 - 2 * outLen.toNat := toNat_rateOf outLen legal
  refine ⟨rfl, rfl, rate, (Nat.zero_mod _).symm, ?_⟩
  rw [State.lanes_created, absorbedLanes_nil (by omega)]

/-- `ABSORB` adds its byte to the message: at the cursor, and with the permutation where the byte fills the block. -/
theorem State.HasAbsorbed.absorb {t : State} {outLen : Byte} {message : List Byte} (h : t.HasAbsorbed outLen message)
    (legal : outLen.toNat ≤ 99) (d : Byte) :
    (t.xorByte t.cursor d).advance.closeBlock.HasAbsorbed outLen (message ++ [d]) := by
  obtain ⟨phase, length, rate, position, lanes⟩ := h
  have hr : 0 < t.rate.toNat := by omega
  have inState : t.rate.toNat ≤ 200 := by omega
  have below : t.position.toNat < t.rate.toNat := position ▸ Nat.mod_lt _ hr
  have cursor : t.cursor = message.length % t.rate.toNat := position
  rw [State.closeBlock_absorbed t d (by omega), position]
  obtain ⟨full, -, restarts⟩ | ⟨more, -, advances⟩ := succ_div_mod message.length hr
  · rw [if_pos full]
    refine ⟨phase, length, rate, ?_, ?_⟩
    · rw [List.length_append]
      exact restarts.symm
    · rw [State.lanes_setPosition, State.lanes_permute, State.lanes_xorByte, lanes, cursor]
      exact (absorbedLanes_append_of_full inState d full).symm
  · rw [if_neg more.ne]
    refine ⟨phase, length, rate, ?_, ?_⟩
    · rw [State.advance_toNat (t.xorByte t.cursor d) (show t.position.toNat < 255 by omega), List.length_append]
      exact (congrArg (· + 1) position).trans advances.symm
    · rw [State.lanes_advance, State.lanes_xorByte, lanes, cursor]
      exact (absorbedLanes_append_of_open inState d more).symm

/-- `INIT` and the `ABSORB`s of a message, by induction on the message from its end. -/
theorem runCommands_absorb (s : State) {outLen : Byte} (legal : outLen.toNat ≤ 99) (message : List Byte) :
    ∃ t, runCommands (.init outLen :: message.map .absorb) s = .next t ∧ t.HasAbsorbed outLen message := by
  induction message using List.reverseRecOn with
  | nil => exact ⟨_, runCommands_singleton (execInit_ok outLen s legal), (s.hasAbsorbed_created legal).answered _⟩
  | append_singleton message d ih =>
    obtain ⟨t, run, absorbed⟩ := ih
    refine ⟨_, ?_, (absorbed.absorb legal d).answered (responseWord .ok 0x00)⟩
    rw [List.map_append, ← List.cons_append]
    exact runCommands_append_singleton run (execAbsorb_ok d t absorbed.phase)

/-- Settles O46: the clauses are the fields of `State.HasAbsorbed`. -/
theorem absorbedBytesAreCounted : Obligations.AbsorbedBytesAreCounted := by
  intro outLen message s legal
  obtain ⟨t, run, absorbed⟩ := runCommands_absorb s legal message
  exact ⟨t, run, absorbed.phase, absorbed.rate, absorbed.position, absorbed.lanes⟩

/-! ### The finalize (R149) -/

/-- The context of length `outLen` in phase `p` at position 0, with the lanes of the sponge function in block form. -/
structure State.HasFinalized (t : State) (outLen suffix : Byte) (p : Phase) (message : List Byte) : Prop where
  phase : t.phase = p
  length : t.L = outLen
  rate : t.rate.toNat = 200 - 2 * outLen.toNat
  position : t.position = 0
  lanes : t.lanes = spongeState (200 - 2 * outLen.toNat) suffix message

theorem State.HasAbsorbed.finalize {t : State} {outLen : Byte} {message : List Byte} (h : t.HasAbsorbed outLen message)
    (legal : outLen.toNat ≤ 99) (suffix : Byte) (p : Phase) :
    (t.finalize suffix p).HasFinalized outLen suffix p message := by
  obtain ⟨-, length, rate, position, lanes⟩ := h
  refine ⟨rfl, length, rate, rfl, ?_⟩
  rw [State.lanes_finalize, lanes, State.cursor, position, State.padAddress, ← rate,
    spongeState_eq (by omega) (by omega)]

/-- `INIT`, the message and a finalize `i` with its suffix and phase. -/
theorem runCommands_finalize (s : State) {outLen : Byte} (legal : outLen.toNat ≤ 99) (message : List Byte) {i : Instr}
    {suffix : Byte} {p : Phase}
    (completes : ∀ t : State, t.phase = .absorbing →
      exec i t = .next ((t.finalize suffix p).offer (responseWord .ok 0x00))) :
    ∃ t, runCommands (.init outLen :: (message.map .absorb ++ [i])) s = .next t ∧
      t.HasFinalized outLen suffix p message := by
  obtain ⟨t, run, absorbed⟩ := runCommands_absorb s legal message
  obtain ⟨phase, length, rate, position, lanes⟩ := absorbed.finalize legal suffix p
  exact ⟨_, runCommands_append_singleton run (completes t absorbed.phase), phase, length, rate, position, lanes⟩

/-- Settles O48: `DIGEST_READ` answers a byte of the finalized lanes. -/
theorem digestIsTheSpongeFunction : Obligations.DigestIsTheSpongeFunction := by
  intro outLen message s legal
  obtain ⟨t, run, finalized⟩ := runCommands_finalize s legal message (i := .finalSha3) execFinalSha3_ok
  refine ⟨t, run, finalized.phase, fun index within => ?_⟩
  rw [← responseWord_ok, ← finalized.lanes]
  exact execDigestRead_ok index t finalized.phase (finalized.length ▸ within)

/-! ### The output squeezed (R148 (d), R149) -/

/-- `t` is the context of `s` with `n` bytes squeezed. The cursor and the lanes are those of the block the next `SQUEEZE` opens,
so that they count from the first byte on. -/
structure State.HasSqueezed (s t : State) (n : Nat) : Prop where
  phase : t.phase = .squeezing
  rate : t.rate = s.rate
  cursor : t.openBlock.cursor = n % s.rate.toNat
  lanes : t.openBlock.lanes = keccakRounds^[n / s.rate.toNat] s.lanes
  taken : t.taken = s.taken ++ (List.range n).map fun k =>
    (byteAt (keccakRounds^[k / s.rate.toNat] s.lanes) (k % s.rate.toNat)).setWidth 16

theorem State.hasSqueezed_zero {s : State} (squeezing : s.phase = .squeezing) (start : s.position = 0)
    (hr : 0 < s.rate.toNat) : s.HasSqueezed s 0 := by
  have unread : ¬ s.rate ≤ s.position := BitVec.not_le.2 (by rw [start]; exact hr)
  refine ⟨squeezing, rfl, ?_, ?_, by simp⟩ <;> rw [State.openBlock_open s unread]
  · rw [State.cursor, start, Nat.zero_mod]
    rfl
  · rw [Nat.zero_div]
    rfl

/-- `SQUEEZE` answers the byte under the cursor of the block it opened. -/
theorem State.HasSqueezed.exec_squeeze {s t : State} {n : Nat} (h : s.HasSqueezed t n) :
    exec .squeeze t = .next (t.openBlock.advance.offer
      ((byteAt (keccakRounds^[n / s.rate.toNat] s.lanes) (n % s.rate.toNat)).setWidth 16)) := by
  rw [← responseWord_ok, ← h.lanes, ← h.cursor]
  exact execSqueeze_ok t h.phase

/-- The cursor moves past the byte read. -/
theorem State.HasSqueezed.advance_toNat {s t : State} {n : Nat} (h : s.HasSqueezed t n) (hr : 0 < s.rate.toNat) :
    t.openBlock.advance.position.toNat = n % s.rate.toNat + 1 := by
  have below : n % s.rate.toNat < s.rate.toNat := Nat.mod_lt n hr
  have bound := s.rate.isLt
  have cursor : t.openBlock.position.toNat = n % s.rate.toNat := h.cursor
  rw [State.advance_toNat _ (by omega), cursor]

/-- One `SQUEEZE` more: where it read the block's last byte, the next one opens a block. -/
theorem State.HasSqueezed.succ {s t : State} {n : Nat} (h : s.HasSqueezed t n) (hr : 0 < s.rate.toNat) :
    ∃ u, exec .squeeze t = .next u ∧ s.HasSqueezed u.takeResponse (n + 1) := by
  refine ⟨_, h.exec_squeeze, ?_⟩
  set v := (t.openBlock.advance.offer _).takeResponse
  have phase : v.phase = .squeezing := t.openBlock_phase.trans h.phase
  have rate : v.rate = s.rate := t.openBlock_rate.trans h.rate
  have position : v.position.toNat = n % s.rate.toNat + 1 := h.advance_toNat hr
  have lanes : v.lanes = keccakRounds^[n / s.rate.toNat] s.lanes := h.lanes
  have taken : v.taken = s.taken ++ (List.range (n + 1)).map fun k =>
      (byteAt (keccakRounds^[k / s.rate.toNat] s.lanes) (k % s.rate.toNat)).setWidth 16 := by
    rw [List.range_succ, List.map_append, ← List.append_assoc, ← h.taken, ← t.openBlock_taken]
    rfl
  obtain ⟨full, count, restarts⟩ | ⟨more, count, advances⟩ := succ_div_mod n hr
  · have used : v.openBlock = v.permute.setPosition 0 := by
      apply State.openBlock_used
      rw [rate, BitVec.le_def, position, full]
    refine ⟨phase, rate, ?_, ?_, taken⟩ <;> rw [used]
    · exact restarts.symm
    · rw [State.lanes_setPosition, State.lanes_permute, lanes, count, Function.iterate_succ_apply']
  · have unread : v.openBlock = v := by
      apply State.openBlock_open
      rw [rate, BitVec.le_def, position]
      exact Nat.not_le.2 more
    refine ⟨phase, rate, ?_, ?_, taken⟩ <;> rw [unread]
    · exact position.trans advances.symm
    · rw [lanes, count]

theorem runCommands_squeeze {s : State} (squeezing : s.phase = .squeezing) (start : s.position = 0)
    (hr : 0 < s.rate.toNat) (n : Nat) :
    ∃ t, runCommands (List.replicate n .squeeze) s = .next t ∧ s.HasSqueezed t n := by
  induction n with
  | zero => exact ⟨s, rfl, State.hasSqueezed_zero squeezing start hr⟩
  | succ n ih =>
    obtain ⟨t, run, squeezed⟩ := ih
    obtain ⟨u, last, squeezed'⟩ := squeezed.succ hr
    rw [List.replicate_succ']
    exact ⟨_, runCommands_append_singleton run last, squeezed'⟩

/-- Settles O47: the last of the `m` `SQUEEZE`s opens the block that `m - 1` of them leave, and moves the cursor on. -/
theorem squeezedBytesAreCounted : Obligations.SqueezedBytesAreCounted := by
  intro m s squeezing inv start atLeastOne
  obtain ⟨n, rfl⟩ := Nat.exists_eq_add_of_le' atLeastOne
  obtain ⟨⟨hL, hrate⟩, -⟩ := (State.inv_iff_of_squeezing squeezing).1 inv
  have hr : 0 < s.rate.toNat := by omega
  obtain ⟨t, run, squeezed⟩ := runCommands_squeeze squeezing start hr n
  rw [List.replicate_succ']
  exact ⟨_, runCommands_append_singleton run squeezed.exec_squeeze, t.openBlock_phase.trans squeezed.phase,
    squeezed.advance_toNat hr, squeezed.lanes⟩

/-- Settles O49: the output is squeezed from the finalized lanes. -/
theorem xofStreamIsTheSpongeFunction : Obligations.XofStreamIsTheSpongeFunction := by
  intro outLen message n s legal
  obtain ⟨u, run, finalized⟩ := runCommands_finalize s legal message (i := .finalShake) execFinalShake_ok
  have hr : 0 < u.rate.toNat := by
    rw [finalized.rate]
    omega
  obtain ⟨t, run', squeezed⟩ := runCommands_squeeze finalized.phase finalized.position hr n
  refine ⟨u, t, run, run', ?_⟩
  rw [squeezed.taken, finalized.rate, finalized.lanes]
  rfl

end Sys2Proof.Machine
end

section
/-! The streaming facade (spec/42_streaming_facade.md R160 to R163, R168): each call is a run of commands that the block
completes all of or refuses all of, as its phase says, and the facade's flags are functions of that phase. -/
namespace Sys2Proof.Machine

/-! ### One command in a phase -/

/-- In phase `p` the command is answered `INVALID_STATE` and changes nothing else (R140, R181). -/
def RefusedIn (i : Instr) (p : Phase) : Prop :=
  ∀ s : State, s.phase = p → exec i s = .next (s.offer 0x0100)

/-- In phase `p` the command is answered `OK` with a data byte as `Q` says and stays in the phase. -/
def CompletesIn (i : Instr) (p : Phase) (Q : Byte → Prop) : Prop :=
  ∀ s : State, s.phase = p →
    ∃ (t : State) (d : Byte), exec i s = .next (t.offer (responseWord .ok d)) ∧ t.phase = p ∧ Q d

theorem refusedIn_absorb (data : Byte) {p : Phase} (notAbsorbing : p ≠ .absorbing) : RefusedIn (.absorb data) p :=
  fun _ phase => if_neg (phase ▸ notAbsorbing)

theorem refusedIn_finalShake {p : Phase} (notAbsorbing : p ≠ .absorbing) : RefusedIn .finalShake p :=
  fun _ phase => if_neg (phase ▸ notAbsorbing)

theorem refusedIn_squeeze {p : Phase} (notSqueezing : p ≠ .squeezing) : RefusedIn .squeeze p :=
  fun _ phase => if_neg (phase ▸ notSqueezing)

theorem completesIn_absorb (data : Byte) : CompletesIn (.absorb data) .absorbing (· = 0x00) :=
  fun s phase => ⟨_, _, execAbsorb_ok data s phase, by simpa using phase, rfl⟩

theorem completesIn_squeeze : CompletesIn .squeeze .squeezing fun _ => True :=
  fun s phase => ⟨_, _, execSqueeze_ok s phase, by simpa using phase, trivial⟩

/-! ### A run of commands that all meet the phase alike -/

theorem runCommands_cons {i : Instr} {s t : State} (run : exec i s = .next t) (is : List Instr) :
    runCommands (i :: is) s = runCommands is t.takeResponse := by
  simp only [runCommands, run]

/-- With no response pending, a response offered and taken is one more in the record and nothing else. -/
theorem State.takeResponse_offer {s : State} (free : s.rsp = none) (r : ResponseWord) :
    (s.offer r).takeResponse = s.setTaken (s.taken ++ [r]) := by
  rw [State.takeResponse_some _ r rfl, State.setTaken, ← free]
  rfl

/-- Commands refused in the phase change the record alone, by induction on the commands. -/
theorem runCommands_of_refusedIn {is : List Instr} {s : State} (free : s.rsp = none)
    (refused : ∀ i ∈ is, RefusedIn i s.phase) :
    runCommands is s = .next (s.setTaken (s.taken ++ List.replicate is.length 0x0100)) := by
  induction is generalizing s with
  | nil => simp [runCommands, State.setTaken]
  | cons i is ih =>
    obtain ⟨first, rest⟩ := List.forall_mem_cons.1 refused
    rw [runCommands_cons (first s rfl), State.takeResponse_offer free,
      ih (s := s.setTaken (s.taken ++ [0x0100])) free rest]
    simp [State.setTaken, List.replicate_succ]

/-- Commands that complete in the phase are all answered `OK`, by induction on the commands. -/
theorem runCommands_of_completesIn {is : List Instr} {p : Phase} {Q : Byte → Prop} {s : State} (phase : s.phase = p)
    (completes : ∀ i ∈ is, CompletesIn i p Q) :
    ∃ (t : State) (ds : List Byte), runCommands is s = .next t ∧ t.phase = p ∧ ds.length = is.length ∧
      (∀ d ∈ ds, Q d) ∧ t.taken = s.taken ++ ds.map fun d => d.setWidth 16 := by
  induction is generalizing s with
  | nil => exact ⟨s, [], rfl, phase, rfl, by simp, by simp⟩
  | cons i is ih =>
    obtain ⟨first, rest⟩ := List.forall_mem_cons.1 completes
    obtain ⟨u, d, run, phaseU, hd⟩ := first s phase
    obtain ⟨-, takenU, -, -⟩ := exec_surroundings run
    have taken : (u.offer (responseWord .ok d)).takeResponse.taken = s.taken ++ [d.setWidth 16] := by
      rw [← responseWord_ok, ← takenU]
      rfl
    obtain ⟨t, ds, runs, phaseT, count, hds, takenT⟩ :=
      ih (s := (u.offer (responseWord .ok d)).takeResponse) phaseU rest
    refine ⟨t, d :: ds, (runCommands_cons run is).trans runs, phaseT, congrArg (· + 1) count,
      List.forall_mem_cons.2 ⟨hd, hds⟩, ?_⟩
    simp [takenT, taken]

/-! ### The calls (R161 to R163, R168) -/

/-- `write` in `ABSORBING`: the data bytes are all 0. -/
theorem runCommands_write {s : State} (absorbing : s.phase = .absorbing) (h : List Byte) :
    ∃ t, runCommands (h.map .absorb) s = .next t ∧ t.phase = .absorbing ∧
      t.taken = s.taken ++ List.replicate h.length 0x0000 := by
  obtain ⟨t, ds, run, phase, count, zeros, taken⟩ :=
    runCommands_of_completesIn absorbing (List.forall_mem_map.2 fun d (_ : d ∈ h) => completesIn_absorb d)
  have answers : ds = List.replicate h.length 0x00 :=
    List.eq_replicate_iff.2 ⟨count.trans (List.length_map _), zeros⟩
  exact ⟨t, run, phase, by simp [taken, answers]⟩

/-- Settles O50: the phase completes every command of the call or refuses every one. -/
theorem facadeCallsAreAllOrNothing : Obligations.FacadeCallsAreAllOrNothing := by
  intro s h n _ free
  refine ⟨fun absorbing => runCommands_write absorbing h, fun notAbsorbing => ?_, fun squeezing => ?_,
    fun notSqueezing => ?_⟩
  · have run := runCommands_of_refusedIn free
      (List.forall_mem_map.2 fun d (_ : d ∈ h) => refusedIn_absorb d notAbsorbing)
    rwa [List.length_map] at run
  · obtain ⟨t, ds, run, phase, count, -, taken⟩ := runCommands_of_completesIn squeezing
      fun i (member : i ∈ List.replicate n .squeeze) => List.eq_of_mem_replicate member ▸ completesIn_squeeze
    exact ⟨t, ds, run, phase, count.trans List.length_replicate, taken⟩
  · have run := runCommands_of_refusedIn free fun i (member : i ∈ List.replicate n .squeeze) =>
      List.eq_of_mem_replicate member ▸ refusedIn_squeeze notSqueezing
    rwa [List.length_replicate] at run

/-- Settles O56: `INIT` enters `ABSORBING`, `FINAL_SHAKE` leaves it for `SQUEEZING`, and there a second one is refused. -/
theorem facadeFlagsFollowThePhase : Obligations.FacadeFlagsFollowThePhase := by
  intro s _ outLen level
  have legal : outLen.toNat ≤ 99 := by
    obtain rfl | rfl := level <;> decide
  refine ⟨_, runCommands_singleton (execInit_ok outLen s legal), rfl, rfl, toNat_rateOf outLen legal,
    _, runCommands_singleton (execFinalShake_ok _ rfl), rfl, rfl, ?_⟩
  have notAbsorbing : Phase.squeezing ≠ .absorbing := by decide
  exact runCommands_of_refusedIn rfl (List.forall_mem_singleton.2 (refusedIn_finalShake notAbsorbing))

end Sys2Proof.Machine
end

section
/-! What the block answers when a word or an edge has an error in it (spec/60_exceptions.md): the order of the statuses (R184),
an idle host (R194), and an answer in every case but that of a second host (R62, R195). -/
namespace Sys2Proof.Machine

/-! ### The order of the statuses (R184) -/

/-- `MISUSE` is the word `0x0200` (R71, R72). -/
theorem responseWord_misuse : responseWord .misuse 0x00 = 0x0200 := rfl

/-- The phase is checked before the index: outside `DIGEST` every index is answered `INVALID_STATE` (R146). -/
theorem refusedIn_digestRead (index : Byte) {p : Phase} (notDigest : p ≠ .digest) : RefusedIn (.digestRead index) p :=
  fun _ phase => if_neg (phase ▸ notDigest)

theorem decode_digestRead_200 : decode 0x060000C8 = .ok (.digestRead 200) := by decide

theorem decode_06010000 : decode 0x06010000 = .error .reservedBits := by decide

/-- Settles O28: a word is decoded before its command is run, and `DIGEST_READ` checks the phase first. -/
theorem oneStatusByPriority : Obligations.OneStatusByPriority := by
  intro s
  have illegalWord (w : CommandWord) (e : Illegal) (illegal : decode w = .error e) :
      ∃ t, runWord w s = .next t ∧ t.rsp = some 0x0300 :=
    ⟨_, (illegalWordsAreExactly w).2 s ⟨e, illegal⟩, rfl⟩
  refine ⟨illegalWord, fun index notDigest _ => ?_, fun outLen tooLong => ?_, fun absorbing => ?_, ?_⟩
  · exact ⟨_, refusedIn_digestRead index notDigest s rfl, rfl⟩
  · rw [← responseWord_misuse]
    exact ⟨_, execInit_misuse outLen s tooLong, rfl⟩
  · have notDigest : Phase.absorbing ≠ .digest := by decide
    exact ⟨_, (runWord_of_decode decode_digestRead_200 s).trans (refusedIn_digestRead 200 notDigest s absorbing), rfl⟩
  · exact illegalWord _ _ decode_06010000

/-! ### Edges (R62, R194, R195) -/

/-- Settles O41: of the cases of a step, all but the last need a second host or one of the three pins high. -/
theorem idleHostLeavesTheState : Obligations.IdleHostLeavesTheState := by
  intro s owner noReset noCommand notReady
  obtain ⟨secondHost, -⟩ | ⟨-, reset, -⟩ | ⟨-, -, -, valid, -⟩ | ⟨-, -, ready, -⟩ | ⟨-, -, -, -, passes⟩ := step_cases s
  · simp [owner] at secondHost
  · simp [noReset] at reset
  · simp [noCommand] at valid
  · simp [notReady] at ready
  · exact passes

/-- Settles O42: of the cases of a step only a second host's is refused, and a command's case runs a word, which is always
answered. -/
theorem blockAlwaysAnswers : Obligations.BlockAlwaysAnswers := by
  refine ⟨fun s owner => ?_, fun s secondHost => ?_, fun w s => ?_⟩
  · obtain ⟨secondHost, -⟩ | ⟨-, -, e⟩ | ⟨-, -, -, -, e⟩ | ⟨-, -, -, -, e⟩ | ⟨-, -, -, -, e⟩ := step_cases s
    · simp [owner] at secondHost
    · exact ⟨_, e⟩
    · obtain ⟨t, -, run, -⟩ := runWord_answers s.edge.cmdData s.passEdge
      exact ⟨t, e.trans run⟩
    · exact ⟨_, e⟩
    · exact ⟨_, e⟩
  · obtain ⟨-, refused⟩ | ⟨owner, -⟩ | ⟨owner, -⟩ | ⟨owner, -⟩ | ⟨owner, -⟩ := step_cases s
    · exact refused
    all_goals simp [secondHost] at owner
  · obtain ⟨t, r, run, answer, -⟩ := runWord_answers w s
    exact ⟨t, r, run, answer⟩

end Sys2Proof.Machine
end

section
/-! The transfers at one edge (spec/70_reset_and_hazards.md sections 1 and 2): the ready and valid outputs under reset and
while a response is pending, and the step each of them allows (R200, R203, R204, R206). -/
namespace Sys2Proof.Machine
section
variable {s : State}

/-! ### The outputs (R200 (d), R203, R204) -/

theorem State.cmdReady_of_rst (reset : s.edge.rst = true) : s.cmdReady = false := by
  simp [State.cmdReady, reset]

theorem State.rspValid_of_rst (reset : s.edge.rst = true) : s.rspValid = false := by
  simp [State.rspValid, reset]

theorem State.cmdReady_of_pending {r : ResponseWord} (pending : s.rsp = some r) : s.cmdReady = false := by
  simp [State.cmdReady, pending]

theorem State.rspValid_of_pending {r : ResponseWord} (noReset : s.edge.rst = false) (pending : s.rsp = some r) :
    s.rspValid = true := by
  simp [State.rspValid, noReset, pending]

/-! ### The step at a reset edge, at the transfer of a response, and while the host holds the block -/

theorem step_of_reset (owner : s.edge.driver = .owner) (reset : s.edge.rst = true) :
    step s = .next s.passEdge.resetEdge := by
  have event : s.portEvent = .reset := by simp [State.portEvent, owner, reset]
  rw [step, event]

theorem step_of_response {r : ResponseWord} (owner : s.edge.driver = .owner) (noReset : s.edge.rst = false)
    (ready : s.edge.rspReady = true) (pending : s.rsp = some r) : step s = .next s.passEdge.takeResponse := by
  have event : s.portEvent = .response := by
    simp [State.portEvent, owner, noReset, ready, State.cmdReady_of_pending pending,
      State.rspValid_of_pending noReset pending]
  rw [step, event]

theorem step_of_hold {r : ResponseWord} (owner : s.edge.driver = .owner) (noReset : s.edge.rst = false)
    (notReady : s.edge.rspReady = false) (pending : s.rsp = some r) : step s = .next s.passEdge := by
  have event : s.portEvent = .wait := by
    simp [State.portEvent, owner, noReset, notReady, State.cmdReady_of_pending pending]
  rw [step, event]

end

/-- Settles O35: both outputs are low, and the step is the reset edge. -/
theorem resetEdgeEndsTheContext : Obligations.ResetEdgeEndsTheContext := fun _ owner reset =>
  ⟨State.cmdReady_of_rst reset, State.rspValid_of_rst reset, _, step_of_reset owner reset, rfl, rfl, rfl, rfl, rfl⟩

/-- Settles O39: the response is valid, so the step is its transfer. -/
theorem responseIsTransferredOnce : Obligations.ResponseIsTransferredOnce := by
  intro s r owner noReset ready pending
  have valid := State.rspValid_of_pending noReset pending
  refine ⟨valid, by rw [State.rspData, if_pos valid, pending], ?_⟩
  rw [step_of_response owner noReset ready pending, State.takeResponse_some s.passEdge r pending]
  rfl

/-- Settles O40: the block holds; and of the cases of a step, a command's needs no response pending and a wait keeps the
one that is, which leaves reset and the transfer. -/
theorem untakenResponseHoldsTheBlock : Obligations.UntakenResponseHoldsTheBlock := by
  constructor
  · intro s r owner noReset notReady pending
    exact ⟨State.cmdReady_of_pending pending, step_of_hold owner noReset notReady pending⟩
  · intro s t r pending run changed
    obtain ⟨-, refused⟩ | ⟨-, reset, -⟩ | ⟨-, -, free, -⟩ | ⟨-, -, ready, -⟩ | ⟨-, -, -, -, passes⟩ := step_cases s
    · simp [refused] at run
    · exact .inl reset
    · simp [pending] at free
    · exact .inr ready
    · obtain rfl := Host.Outcome.next.inj (passes.symm.trans run)
      exact absurd pending changed

end Sys2Proof.Machine
end

section
/-! Edges and transactions (spec/70_reset_and_hazards.md R203, R204, R210): no command reads the host's pins to come, so an
edge that offers a word and an edge that takes the response are the word's transaction. -/
namespace Sys2Proof.Machine

/-! ### The host's pins to come are read by no command -/

/-- The state with another rest of the host's pins. -/
def State.setHost (s : State) (host : List HostEdge) : State := { s with host := host }

theorem State.closeBlock_setHost (s : State) (host : List HostEdge) :
    (s.setHost host).closeBlock = s.closeBlock.setHost host :=
  (apply_ite (State.setHost · host) (s.position = s.rate) (s.permute.setPosition 0) s).symm

theorem State.openBlock_setHost (s : State) (host : List HostEdge) :
    (s.setHost host).openBlock = s.openBlock.setHost host :=
  (apply_ite (State.setHost · host) (s.rate ≤ s.position) (s.permute.setPosition 0) s).symm

theorem State.takeResponse_setHost (s : State) (host : List HostEdge) :
    (s.setHost host).takeResponse = s.takeResponse.setHost host := by
  cases pending : s.rsp with
  | none => rw [State.takeResponse_none s pending, State.takeResponse_none (s.setHost host) pending]
  | some r =>
    rw [State.takeResponse_some s r pending, State.takeResponse_some (s.setHost host) r pending]
    rfl

/-- A command's checks and updates go as with the other pins. -/
theorem sameOutcome_exec_setHost (i : Instr) (s : State) (host : List HostEdge) :
    SameOutcome (fun t u => u = t.setHost host) (exec i s) (exec i (s.setHost host)) := by
  cases i with
  | init outLen => exact sameOutcome_ite (c := initLengthLegal outLen) rfl rfl
  | absorb data =>
    have closed := State.closeBlock_setHost (s.xorByte s.cursor data).advance host
    exact sameOutcome_ite (c := s.phase = .absorbing) (congrArg (State.offer · _) closed) rfl
  | finalSha3 => exact sameOutcome_ite (c := s.phase = .absorbing) rfl rfl
  | finalShake => exact sameOutcome_ite (c := s.phase = .absorbing) rfl rfl
  | squeeze =>
    show SameOutcome _ (execSqueeze s) (execSqueeze (s.setHost host))
    rw [execSqueeze, execSqueeze, State.openBlock_setHost]
    exact sameOutcome_ite rfl rfl
  | digestRead index => exact sameOutcome_ite (c := s.phase = .digest) (sameOutcome_ite rfl rfl) rfl

theorem runWord_setHost {w : CommandWord} {s t : State} (run : runWord w s = .next t) (host : List HostEdge) :
    runWord w (s.setHost host) = .next (t.setHost host) := by
  obtain ⟨u, -, run', -, -⟩ := runWord_answers w (s.setHost host)
  have same : SameOutcome (fun t u => u = t.setHost host) (runWord w s) (runWord w (s.setHost host)) := by
    unfold runWord
    cases decode w with
    | ok i => exact sameOutcome_exec_setHost i s host
    | error e => rfl
  rw [run, run'] at same
  rw [run', same]

theorem transact_of_runWord {w : CommandWord} {s t : State} (run : runWord w s = .next t) :
    transact w s = .next t.takeResponse := by
  simp only [transact, run]

theorem transact_setHost {w : CommandWord} {s t : State} (run : transact w s = .next t) (host : List HostEdge) :
    transact w (s.setHost host) = .next (t.setHost host) := by
  obtain ⟨u, -, runW, -⟩ := runWord_answers w s
  obtain rfl := Host.Outcome.next.inj ((transact_of_runWord runW).symm.trans run)
  rw [transact_of_runWord (runWord_setHost runW host), State.takeResponse_setHost]

/-! ### Two edges are a transaction -/

theorem core_run_succ {s t : State} (run : step s = .next t) (k : Nat) :
    Sys2Proof.core.run (k + 1) s = Sys2Proof.core.run k t := by
  have run' : Sys2Proof.core.step s = .next t := run
  simp only [Host.Core.run, run']

/-- The first edge transfers the word, which is run and answered, and the second transfers the answer. -/
theorem core_run_transaction {w : CommandWord} {s : State} {rest : List HostEdge} (free : s.rsp = none)
    (pins : s.host = sendEdge w :: takeEdge :: rest) :
    ∃ t, transact w s = .next t ∧ t.rsp = none ∧
      ∀ k, Sys2Proof.core.run (k + 2) s = Sys2Proof.core.run k (t.setHost rest) := by
  obtain ⟨u, r, run, answer, -⟩ := runWord_answers w s
  have edge : s.edge = sendEdge w := by simp [State.edge, pins]
  have passed : s.passEdge = s.setHost (takeEdge :: rest) := by simp [State.passEdge, State.setHost, pins]
  have send : step s = .next (u.setHost (takeEdge :: rest)) := by
    rw [step_of_command (by rw [edge]; rfl) (by rw [edge]; rfl) (by rw [edge]; rfl) free, edge, passed]
    exact runWord_setHost run _
  have take : step (u.setHost (takeEdge :: rest)) = .next (u.takeResponse.setHost rest) := by
    rw [← State.takeResponse_setHost]
    exact step_of_response rfl rfl rfl answer
  refine ⟨u.takeResponse, transact_of_runWord run, u.takeResponse_rsp, fun k => ?_⟩
  rw [core_run_succ send, core_run_succ take]

/-- Settles O44, by induction on the words: the first two edges are the first word's transaction, which leaves the host with
the pins of the words after it. -/
theorem edgesCarryOutTheTransactions : Obligations.EdgesCarryOutTheTransactions := by
  intro ws s rest free pins
  show _ = transactAll ws (s.setHost rest)
  induction ws generalizing s with
  | nil =>
    have kept : s.setHost rest = s := by rw [State.setHost, ← show s.host = rest from pins]
    rw [kept]
    rfl
  | cons w ws ih =>
    obtain ⟨t, run, idle, edges⟩ := core_run_transaction (rest := hostProgram ws ++ rest) free pins
    have twoEdges : Sys2Proof.core.run (2 * (w :: ws).length) s =
        Sys2Proof.core.run (2 * ws.length) (t.setHost (hostProgram ws ++ rest)) := edges _
    rw [twoEdges, ih (t.setHost (hostProgram ws ++ rest)) idle rfl, transactAll_cons (transact_setHost run rest)]
    rfl

end Sys2Proof.Machine
end
